-- ==== Sys2Proof/Word.lean ====
section
/-! DEFINITION. The word and byte types of the machine (00_scope.md R5 WORD_BITS, R6). -/

namespace Sys2Proof

/-- A 16-bit unsigned word: a register, a memory word, an instruction or the PC (R5, R6). -/
abbrev Word := BitVec 16

/-- An 8-bit console character (R11). -/
abbrev Byte := BitVec 8

end Sys2Proof
end

