-- ==== Sys2Proof/Syntax.lean ====
section
/-! DEFINITION. The instructions: one constructor per row of spec/opcode_table.json
(30_encoding.md R59 to R63). Operands are the fields of the word, not yet extended. -/

namespace Sys2Proof

/-- A general register R0 to R7, named by its number (10_state.md R13, 30_encoding.md R62). -/
abbrev Reg := Fin 8

/-- One instruction form. Which terms a word can stand for is `Instr.wf`. -/
inductive Instr where
  /-- BR (R87): the n, z, p bits and PCoffset9. -/
  | br (n z p : Bool) (off : BitVec 9)
  /-- ADD, register form (R73). -/
  | addReg (dr sr1 sr2 : Reg)
  /-- ADD, immediate form (R74). -/
  | addImm (dr sr1 : Reg) (imm : BitVec 5)
  /-- LD (R79). -/
  | ld (dr : Reg) (off : BitVec 9)
  /-- ST (R83). -/
  | st (sr : Reg) (off : BitVec 9)
  /-- JSRR (R91). -/
  | jsrr (base : Reg)
  /-- JSR (R90). -/
  | jsr (off : BitVec 11)
  /-- AND, register form (R75). -/
  | andReg (dr sr1 sr2 : Reg)
  /-- AND, immediate form (R76). -/
  | andImm (dr sr1 : Reg) (imm : BitVec 5)
  /-- LDR (R81). -/
  | ldr (dr base : Reg) (off : BitVec 6)
  /-- STR (R85). -/
  | str (sr base : Reg) (off : BitVec 6)
  /-- RTI (R92). -/
  | rti
  /-- NOT (R77). -/
  | notReg (dr sr : Reg)
  /-- LDI (R80). -/
  | ldi (dr : Reg) (off : BitVec 9)
  /-- STI (R84). -/
  | sti (sr : Reg) (off : BitVec 9)
  /-- RET, the return form of JMP (R89). -/
  | ret
  /-- JMP through a register other than R7 (R88). -/
  | jmp (base : Reg)
  /-- Opcode 1101 (R105). -/
  | unassigned
  /-- LEA (R82). -/
  | lea (dr : Reg) (off : BitVec 9)
  /-- TRAP with a vector outside the service set (R95, R96). -/
  | trap (vec : BitVec 8)
  /-- TRAP x20 (R97). -/
  | getc
  /-- TRAP x21 (R99). -/
  | out
  /-- TRAP x22 (R100). -/
  | puts
  /-- TRAP x23, the table's IN (R98). -/
  | inChar
  /-- TRAP x24 (R101). -/
  | putsp
  /-- TRAP x25 (R102). -/
  | halt
  deriving DecidableEq, Repr

end Sys2Proof
end

