-- ==== Sys2Proof/WellFormed.lean ====
section
/-! DEFINITION. The instructions a word can stand for: the checks the types do not make. -/

namespace Sys2Proof

/-- The six vectors of the fixed service set (43_trap.md R96). -/
def serviceVectors : List (BitVec 8) := [0x20, 0x21, 0x22, 0x23, 0x24, 0x25]

/-- JMP names a register other than R7, since BaseR = 7 is RET (42_control.md R88, R89); TRAP carries
a vector outside the service set, since each service has a constructor of its own (43_trap.md R96).
Every other term stands for a word (log 12). -/
def Instr.wf : Instr → Bool
  | .jmp base => decide (base ≠ 7)
  | .trap vec => decide (vec ∉ serviceVectors)
  | .br _ _ _ _ | .addReg _ _ _ | .addImm _ _ _ | .ld _ _ | .st _ _ | .jsrr _ | .jsr _
  | .andReg _ _ _ | .andImm _ _ _ | .ldr _ _ _ | .str _ _ _ | .rti | .notReg _ _ | .ldi _ _
  | .sti _ _ | .ret | .unassigned | .lea _ _ | .getc | .out | .puts | .inChar | .putsp | .halt => true

end Sys2Proof
end

