-- ==== Sys2Proof/Decode.lean ====
section
/-! DEFINITION. Decoding and encoding of the one-word instructions (30_encoding.md R57 to R66, R69).
Decoding is total: R65 and R70 leave no word without an instruction, so nothing is rejected. The
field positions and opcode values are the spec's decisions D1, D2, D3 (log 16). -/

namespace Sys2Proof

/-! ### Fields of a word (R61, R62, R63) -/

/-- `ir[15:12]` (R58). -/
def opcodeOf (w : Word) : BitVec 4 := w.extractLsb' 12 4

/-- The register named by the three bits from `lo` up (R62). -/
def regAt (w : Word) (lo : Nat) : Reg := ⟨(w.extractLsb' lo 3).toNat, (w.extractLsb' lo 3).isLt⟩

/-- `ir[4:0]`. -/
def imm5Of (w : Word) : BitVec 5 := w.extractLsb' 0 5

/-- `ir[5:0]`. -/
def off6Of (w : Word) : BitVec 6 := w.extractLsb' 0 6

/-- `ir[8:0]`. -/
def off9Of (w : Word) : BitVec 9 := w.extractLsb' 0 9

/-- `ir[10:0]`. -/
def off11Of (w : Word) : BitVec 11 := w.extractLsb' 0 11

/-- `ir[7:0]`, the trap vector (R63). -/
def vect8Of (w : Word) : BitVec 8 := w.extractLsb' 0 8

/-! ### Decoding -/

/-- The TRAP service of a vector, or TRAP itself for a vector outside the set (43_trap.md R96). -/
def decodeTrap (v : BitVec 8) : Instr :=
  if v = 0x20 then .getc
  else if v = 0x21 then .out
  else if v = 0x22 then .puts
  else if v = 0x23 then .inChar
  else if v = 0x24 then .putsp
  else if v = 0x25 then .halt
  else .trap v

/-- The instruction of a word: by `ir[15:12]` (R59), then `ir[5]` for ADD and AND (R63), `ir[11]` for
the subroutine calls and `ir[8:6]` for JMP and RET (R66). Ignored bits are not looked at (R69). -/
def decode (w : Word) : Instr :=
  match (opcodeOf w).toNat with
  | 0 => .br (w.getLsbD 11) (w.getLsbD 10) (w.getLsbD 9) (off9Of w)
  | 1 => if w.getLsbD 5 then .addImm (regAt w 9) (regAt w 6) (imm5Of w)
         else .addReg (regAt w 9) (regAt w 6) (regAt w 0)
  | 2 => .ld (regAt w 9) (off9Of w)
  | 3 => .st (regAt w 9) (off9Of w)
  | 4 => if w.getLsbD 11 then .jsr (off11Of w) else .jsrr (regAt w 6)
  | 5 => if w.getLsbD 5 then .andImm (regAt w 9) (regAt w 6) (imm5Of w)
         else .andReg (regAt w 9) (regAt w 6) (regAt w 0)
  | 6 => .ldr (regAt w 9) (regAt w 6) (off6Of w)
  | 7 => .str (regAt w 9) (regAt w 6) (off6Of w)
  | 8 => .rti
  | 9 => .notReg (regAt w 9) (regAt w 6)
  | 10 => .ldi (regAt w 9) (off9Of w)
  | 11 => .sti (regAt w 9) (off9Of w)
  | 12 => if regAt w 6 = 7 then .ret else .jmp (regAt w 6)
  | 13 => .unassigned
  | 14 => .lea (regAt w 9) (off9Of w)
  | _ => decodeTrap (vect8Of w)

/-! ### Encoding -/

/-- The three bits that name a register (R62). -/
def Reg.field (r : Reg) : BitVec 3 := BitVec.ofFin r

/-- A word with opcode `op`, a register in `[11:9]` and nine bits below (format PC9 of R61). -/
def wordPc9 (op : BitVec 4) (r : Reg) (off : BitVec 9) : Word := op ++ Reg.field r ++ off

/-- A word with opcode `op`, registers in `[11:9]` and `[8:6]` and six bits below (R61). -/
def wordBase6 (op : BitVec 4) (r base : Reg) (low : BitVec 6) : Word :=
  op ++ Reg.field r ++ Reg.field base ++ low

/-- A TRAP word with the ignored bits `[11:8]` zero (R61). -/
def wordTrap (v : BitVec 8) : Word := 0xF#4 ++ 0#4 ++ v

/-- The canonical word of an instruction, by the formats of R61. Ignored bits are 0, but for NOT,
whose `[5:0]` the table's note writes 111111 (log 13). -/
def encode : Instr → Word
  | .br n z p off => 0x0#4 ++ BitVec.ofBool n ++ BitVec.ofBool z ++ BitVec.ofBool p ++ off
  | .addReg dr sr1 sr2 => wordBase6 0x1 dr sr1 (0#3 ++ Reg.field sr2)
  | .addImm dr sr1 imm => wordBase6 0x1 dr sr1 (1#1 ++ imm)
  | .ld dr off => wordPc9 0x2 dr off
  | .st sr off => wordPc9 0x3 sr off
  | .jsrr base => wordBase6 0x4 0 base 0
  | .jsr off => 0x4#4 ++ 1#1 ++ off
  | .andReg dr sr1 sr2 => wordBase6 0x5 dr sr1 (0#3 ++ Reg.field sr2)
  | .andImm dr sr1 imm => wordBase6 0x5 dr sr1 (1#1 ++ imm)
  | .ldr dr base off => wordBase6 0x6 dr base off
  | .str sr base off => wordBase6 0x7 sr base off
  | .rti => 0x8000
  | .notReg dr sr => wordBase6 0x9 dr sr 0x3F
  | .ldi dr off => wordPc9 0xA dr off
  | .sti sr off => wordPc9 0xB sr off
  | .ret => wordBase6 0xC 0 7 0
  | .jmp base => wordBase6 0xC 0 base 0
  | .unassigned => 0xD000
  | .lea dr off => wordPc9 0xE dr off
  | .trap vec => wordTrap vec
  | .getc => wordTrap 0x20
  | .out => wordTrap 0x21
  | .puts => wordTrap 0x22
  | .inChar => wordTrap 0x23
  | .putsp => wordTrap 0x24
  | .halt => wordTrap 0x25

/-! ### The opcode table as data -/

/-- One row of spec/opcode_table.json: a word belongs to it when `w &&& mask = pat` and, for JMP's
row, the excluded row does not take it. -/
structure OpRow where
  mnemonic : String
  pat : Word
  mask : Word
  excluded : Option (Word × Word) := none
  deriving DecidableEq, Repr

/-- The row takes the word (R65; "RET's row is tested before JMP's"). -/
def OpRow.takes (r : OpRow) (w : Word) : Bool :=
  decide (w &&& r.mask = r.pat) &&
    match r.excluded with
    | none => true
    | some (pat, mask) => decide (w &&& mask ≠ pat)

/-- The 20 rows that are no trap-service name (R65). -/
def coreRows : List OpRow :=
  [⟨"BR", 0x0000, 0xF000, none⟩, ⟨"ADD", 0x1000, 0xF020, none⟩, ⟨"ADD", 0x1020, 0xF020, none⟩,
   ⟨"LD", 0x2000, 0xF000, none⟩, ⟨"ST", 0x3000, 0xF000, none⟩, ⟨"JSRR", 0x4000, 0xF800, none⟩,
   ⟨"JSR", 0x4800, 0xF800, none⟩, ⟨"AND", 0x5000, 0xF020, none⟩, ⟨"AND", 0x5020, 0xF020, none⟩,
   ⟨"LDR", 0x6000, 0xF000, none⟩] ++
  [⟨"STR", 0x7000, 0xF000, none⟩, ⟨"RTI", 0x8000, 0xF000, none⟩, ⟨"NOT", 0x9000, 0xF000, none⟩,
   ⟨"LDI", 0xA000, 0xF000, none⟩, ⟨"STI", 0xB000, 0xF000, none⟩, ⟨"RET", 0xC1C0, 0xF1C0, none⟩,
   ⟨"JMP", 0xC000, 0xF000, some (0xC1C0, 0xF1C0)⟩, ⟨"UNASSIGNED", 0xD000, 0xF000, none⟩,
   ⟨"LEA", 0xE000, 0xF000, none⟩, ⟨"TRAP", 0xF000, 0xF000, none⟩]

/-- The row of `coreRows` an instruction stands in; the services stand in TRAP's row (R95). -/
def Instr.coreRow : Instr → OpRow
  | .br _ _ _ _ => ⟨"BR", 0x0000, 0xF000, none⟩
  | .addReg _ _ _ => ⟨"ADD", 0x1000, 0xF020, none⟩
  | .addImm _ _ _ => ⟨"ADD", 0x1020, 0xF020, none⟩
  | .ld _ _ => ⟨"LD", 0x2000, 0xF000, none⟩
  | .st _ _ => ⟨"ST", 0x3000, 0xF000, none⟩
  | .jsrr _ => ⟨"JSRR", 0x4000, 0xF800, none⟩
  | .jsr _ => ⟨"JSR", 0x4800, 0xF800, none⟩
  | .andReg _ _ _ => ⟨"AND", 0x5000, 0xF020, none⟩
  | .andImm _ _ _ => ⟨"AND", 0x5020, 0xF020, none⟩
  | .ldr _ _ _ => ⟨"LDR", 0x6000, 0xF000, none⟩
  | .str _ _ _ => ⟨"STR", 0x7000, 0xF000, none⟩
  | .rti => ⟨"RTI", 0x8000, 0xF000, none⟩
  | .notReg _ _ => ⟨"NOT", 0x9000, 0xF000, none⟩
  | .ldi _ _ => ⟨"LDI", 0xA000, 0xF000, none⟩
  | .sti _ _ => ⟨"STI", 0xB000, 0xF000, none⟩
  | .ret => ⟨"RET", 0xC1C0, 0xF1C0, none⟩
  | .jmp _ => ⟨"JMP", 0xC000, 0xF000, some (0xC1C0, 0xF1C0)⟩
  | .unassigned => ⟨"UNASSIGNED", 0xD000, 0xF000, none⟩
  | .lea _ _ => ⟨"LEA", 0xE000, 0xF000, none⟩
  | .trap _ | .getc | .out | .puts | .inChar | .putsp | .halt => ⟨"TRAP", 0xF000, 0xF000, none⟩

/-- The bits of a word that its format marks `-`, by opcode and selector bit (R61, R69). -/
def ignoredBits (w : Word) : Word :=
  match (opcodeOf w).toNat with
  | 1 | 5 => if w.getLsbD 5 then 0x0000 else 0x0018
  | 4 => if w.getLsbD 11 then 0x0000 else 0x063F
  | 8 | 13 => 0x0FFF
  | 9 => 0x003F
  | 12 => 0x0E3F
  | 15 => 0x0F00
  | _ => 0x0000

/-! ### The host's entry to the decoder -/

/-- What the decoder reads from the instruction whose bits, numbered as the table numbers them, are
`w`: every instruction is one word (R57), so bits at and above `nbits` are zero and a row longer
than a word is no instruction of this hardware. -/
def decodeTableWord (nbits w : Nat) : Option Instr :=
  if nbits ≤ 16 then some (decode (BitVec.ofNat 16 (w % 2 ^ nbits))) else none

end Sys2Proof
end

