-- ==== Sys2Proof/Config.lean ====
section
/-! DEFINITION. The implementation parameters of 00_scope.md R5. The rows the source fixes are
constants; the rows marked D<n>, which "the model takes as arguments", are the fields of `Config`.
A configuration is plain data carried by the state and written by nothing (log 3). -/

namespace Sys2Proof

/-- MEM_WORDS: the number of memory words, 2^15 (R5, R30). -/
abbrev memWords : Nat := 32768

/-- OOR_POLICY: what an address of MEM_WORDS or above does (R5, R32). -/
inductive OorPolicy where
  /-- Reference: the address reaches the word `addr[14:0]`. -/
  | aliasLow
  /-- The modelling refusal of R39: the run is refused at that access. -/
  | refuse
  deriving DecidableEq, Repr

/-- SAFE_LO: the lower bound of the safe range (R5). -/
inductive SafeLo where
  /-- Reference: the lowest load base of the images loaded, and `beforeLoad` while none is (log 10). -/
  | lowestLoadBase (beforeLoad : Nat)
  /-- A bound of its own, whatever is loaded. -/
  | fixed (bound : Nat)
  deriving DecidableEq, Repr

/-- The parameters of R5 that the source leaves open. -/
structure Config where
  /-- OOR_POLICY. -/
  oorPolicy : OorPolicy
  /-- IO_BASE: the first word of the special I/O region. -/
  ioBase : Nat
  /-- DSR_ADDR: the read-only "device ready" status word. -/
  dsrAddr : Nat
  /-- DDR_ADDR: the "device data" word (console output). -/
  ddrAddr : Nat
  /-- RES_WORDS: the size of the reserved call-stack range. -/
  resWords : Nat
  /-- STACK_TOP: the cursor of the empty call stack. -/
  stackTop : Nat
  /-- STACK_CAPACITY: the number of entries the call stack holds. -/
  stackCapacity : Nat
  /-- POP_SENTINEL: the value a failed pop yields. -/
  popSentinel : Word
  /-- INTERRUPT_CHARS: the input codes that end the run. -/
  interruptChars : List Byte
  /-- CRLF_ALL: whether CR is followed by LF on string output and data-word writes too. -/
  crlfAll : Bool
  /-- PUTSP_SKIP_ZERO_HIGH: whether a zero high byte of a packed word is not output. -/
  putspSkipZeroHigh : Bool
  /-- SAFE_LO (log 10). -/
  safeLo : SafeLo
  /-- SAFE_HI: the upper bound (exclusive) of the safe range. -/
  safeHi : Nat
  deriving DecidableEq, Repr

/-- STACK_LIMIT: the lowest cursor value (R5). -/
def Config.stackLimit (c : Config) : Nat := c.stackTop - c.stackCapacity

/-- RES_BASE: the first word of the reserved range (R5). -/
def Config.resBase (c : Config) : Nat := c.ioBase - c.resWords

/-- The index lies in the special I/O region (R40). -/
def Config.inIo (c : Config) (a : Nat) : Bool := decide (c.ioBase ≤ a ∧ a < memWords)

/-- The index lies in the range reserved for the call stack (R40). -/
def Config.inReserved (c : Config) (a : Nat) : Bool := decide (c.resBase ≤ a ∧ a < c.ioBase)

/-- The index is one of the call-stack entries (R40). -/
def Config.inStack (c : Config) (a : Nat) : Bool := decide (c.stackLimit ≤ a ∧ a < c.stackTop)

/-- What R5 requires of every choice of the parameters: `0 <= STACK_LIMIT < STACK_TOP <= MEM_WORDS`
(STACK_LIMIT being the integer STACK_TOP - STACK_CAPACITY), two different special words inside the
memory, neither of them a call-stack entry. -/
def Config.wf (c : Config) : Bool :=
  decide (0 < c.stackCapacity ∧ c.stackCapacity ≤ c.stackTop ∧ c.stackTop ≤ memWords ∧
    c.dsrAddr ≠ c.ddrAddr ∧ c.dsrAddr < memWords ∧ c.ddrAddr < memWords) &&
  !c.inStack c.dsrAddr && !c.inStack c.ddrAddr

/-- The reference configuration of R5 (its decisions D5, D6, D7, D9, D16, D17, D19, D26). -/
def Config.reference : Config where
  oorPolicy := .aliasLow
  ioBase := 0x7E00
  dsrAddr := 0x7E04
  ddrAddr := 0x7E06
  resWords := 256
  stackTop := 0x7E00
  stackCapacity := 16
  popSentinel := 0x0000
  interruptChars := [0x03, 0x04]
  crlfAll := false
  putspSkipZeroHigh := true
  safeLo := .lowestLoadBase 0x3000
  safeHi := 0x7D00

end Sys2Proof
end

