-- ==== Sys2Proof/Machine/State.lean ====
section
/-! DEFINITION. The architectural state (10_state.md R29) with what the spec implies beside it, as
plain data; the reasons a step can stop; the state right after reset (70_reset_and_hazards.md R121). -/

namespace Sys2Proof.Machine

/-- Memory as (index, word) pairs, indices strictly rising, no word equal to 0x0000, which is what an
unlisted index reads as (20_memory.md R30, R41; log 1, log 2). -/
abbrev Memory := List (Nat × Word)

/-- A diagnostic of the reported-and-continue tier (60_exceptions.md R106). -/
inductive Report where
  /-- An access outside the safe range, with the 16-bit address (20_memory.md R38). -/
  | memWarning (addr : Word)
  /-- A push onto a full stack, with the value not pushed (R43). -/
  | stackOverflow (v : Word)
  /-- A pop from an empty stack (R44). -/
  | stackUnderflow
  deriving DecidableEq, Repr

/-- The fatal outcomes (60_exceptions.md R106, R108): the run ends at once and nothing of the cycle in
progress commits. -/
inductive Fault where
  /-- Raised by GETC and IN (and by TRAP with their vectors) when the character supplied is in
  INTERRUPT_CHARS (43_trap.md R104), with the character. Safe: the spec ends the run here too. -/
  | keyboardInterrupt (c : Byte)
  /-- Raised by the loader when the image cannot be read (70 R122). Safe: the spec's own outcome. -/
  | imageUnreadable
  /-- Raised by the loader when the image has no words (70 R122). Safe: the spec's own outcome. -/
  | imageEmpty
  /-- Raised by the loader when the image does not fit the memory (70 R122). Safe: the spec's own
  outcome. -/
  | imageTooLarge
  deriving DecidableEq, Repr

/-- The refusals. -/
inductive Refusal where
  /-- An instruction without a meaning yet: raised by `exec` only. Safe. -/
  | notModelled (mnemonic : String)
  /-- OOR_POLICY = fault and an access at an address of MEM_WORDS or above (20_memory.md R32, R39):
  raised by fetch, loads, stores and string reads. Safe, and never raised under the reference policy. -/
  | outOfRange (addr : Word)
  /-- A request of the host outside its turn (00_scope.md R4, 70_reset_and_hazards.md R126): raised by
  the host operations only, never by a step. Safe: the spec has no such request (log 24). -/
  | hostOutOfTurn
  deriving DecidableEq, Repr

/-- The machine's state at a cycle boundary, and inside a cycle once the instruction is fetched. -/
structure State where
  /-- The implementation parameters of 00_scope.md R5; nothing writes them (log 3). -/
  cfg : Config
  /-- R0 to R7 (R13). -/
  regs : Vector Word 8
  /-- The program counter (R16). -/
  pc : Word
  /-- Flag N (R18). -/
  n : Bool
  /-- Flag Z (R18). -/
  z : Bool
  /-- Flag P (R18). -/
  p : Bool
  /-- The instruction register (R22). -/
  ir : Word
  /-- The halted flag (R23). -/
  halted : Bool
  /-- The instruction counter (R24). -/
  counter : Nat
  /-- The call-stack cursor SPc (R25). -/
  spc : Nat
  /-- M[0 .. MEM_WORDS - 1] (R30). -/
  mem : Memory
  /-- The bytes given to the host console, oldest first (R11, R29). -/
  consoleOut : List Byte
  /-- The input characters consumed, oldest first (R11, R29). -/
  inputConsumed : List Byte
  /-- The input characters the host supplies and nothing has consumed yet, next first (R11; log 6). -/
  inputPending : List Byte
  /-- A GETC or IN waits for a character (43_trap.md R103, 70 R127; log 5). -/
  waiting : Bool
  /-- The diagnostics reported, oldest first (R12, R106; log 9). -/
  reports : List Report
  /-- The lowest load base of the images loaded, if any: SAFE_LO's reference (R5; log 10). -/
  loadFloor : Option Nat
  deriving DecidableEq, Repr

/-- The outcome of a meaning, of a cycle and of a host operation. -/
abbrev Result := Host.Outcome State Fault Refusal

/-- Right after reset: "construct-and-zero" (70 R121, 10_state.md R29), with an empty call stack and
the reference configuration. -/
def State.reset : State where
  cfg := Config.reference
  regs := Vector.replicate 8 0x0000
  pc := 0x0000
  n := false
  z := false
  p := false
  ir := 0x0000
  halted := false
  counter := 0
  spc := Config.reference.stackTop
  mem := []
  consoleOut := []
  inputConsumed := []
  inputPending := []
  waiting := false
  reports := []
  loadFloor := none

end Sys2Proof.Machine
end

