-- ==== Sys2Proof/Machine/Operands.lean ====
section
/-! DEFINITION. Extension of fields, byte views of a word, and the effective addresses
(00_scope.md R8; 20_memory.md R32, R47; 41_data_movement.md R78). -/

namespace Sys2Proof.Machine

/-- `sext_N` (R8): the 16-bit word that has the field's two's-complement value. -/
def sext {n : Nat} (v : BitVec n) : Word := v.signExtend 16

/-- `zext_N` (R8): the 16-bit word whose low bits are the field and whose other bits are 0. -/
def zext {n : Nat} (v : BitVec n) : Word := v.setWidth 16

/-- `w[7:0]` (R6). -/
def lowByte (w : Word) : Byte := w.extractLsb' 0 8

/-- `w[15:8]` (R6). -/
def highByte (w : Word) : Byte := w.extractLsb' 8 8

/-- PC-relative: the incremented PC plus a sign-extended offset, mod 2^16 (R78, R87, R90). -/
def pcRelative {n : Nat} (pc : Word) (off : BitVec n) : Word := pc + sext off

/-- Base plus offset: mod 2^16 (R78). -/
def baseOffset (base : Word) (off : BitVec 6) : Word := base + sext off

/-- `MemIndex` (R32): the index of the memory word a 16-bit address reaches; none where the policy
refuses the run. -/
def memIndex (c : Config) (addr : Word) : Option Nat :=
  if addr.toNat < memWords then some addr.toNat
  else match c.oorPolicy with
    | .aliasLow => some (addr.extractLsb' 0 15).toNat
    | .refuse => none

end Sys2Proof.Machine
end

