-- ==== Sys2Proof/Machine/Ops.lean ====
section
/-! DEFINITION. The named operations over registers, memory, the console, the call stack and the
console input (10_state.md R13; 20_memory.md R34 to R38, R43 to R45; 43_trap.md R97 to R104).

Exceptions: this hardware has none (60_exceptions.md R109). No instruction saves a pc or a status and
goes to a handler (R112), and none returns from one (R113), so there is no such operation; the one
fatal outcome is `terminate`. -/

namespace Sys2Proof.Machine

/-! ### Registers -/

/-- `x[r]` (00_scope.md R9). No register is hard-wired (R13). -/
def State.reg (s : State) (r : Reg) : Word := s.regs[r.val]

/-- `x[r] <- v` (00_scope.md R9). -/
def State.setReg (s : State) (r : Reg) (v : Word) : State := { s with regs := s.regs.set r.val v }

/-- `pc <- v` (00_scope.md R9). -/
def State.setPc (s : State) (v : Word) : State := { s with pc := v }

/-! ### Memory as data -/

/-- The word at an index: 0x0000 where nothing is listed (R41). -/
def Memory.read (m : Memory) (a : Nat) : Word :=
  match m with
  | [] => 0x0000
  | (k, w) :: rest => if k = a then w else Memory.read rest a

/-- Puts a word at an index, keeping the canonical form: a word 0x0000 is not listed. -/
def Memory.write (m : Memory) (a : Nat) (v : Word) : Memory :=
  match m with
  | [] => if v = 0x0000 then [] else [(a, v)]
  | (k, w) :: rest =>
    if a < k then (if v = 0x0000 then (k, w) :: rest else (a, v) :: (k, w) :: rest)
    else if a = k then (if v = 0x0000 then rest else (a, v) :: rest)
    else (k, w) :: Memory.write rest a v

/-- Every index is at least `lo` and inside the memory, the indices rise strictly, and no listed word
is 0x0000. -/
def Memory.wfFrom (lo : Nat) (m : Memory) : Bool :=
  match m with
  | [] => true
  | (k, w) :: rest =>
    decide (lo ≤ k ∧ k < memWords ∧ w ≠ 0x0000) && Memory.wfFrom (k + 1) rest

/-- The canonical form, in which equal memories are equal lists (log 1). -/
def Memory.wf (m : Memory) : Bool := Memory.wfFrom 0 m

/-- `M[a]`: the stored word, read without the intercepts of R34. -/
def State.word (s : State) (a : Nat) : Word := Memory.read s.mem a

/-- `M[a] <- v`: the store without the intercepts of R35. -/
def State.setWord (s : State) (a : Nat) (v : Word) : State := { s with mem := Memory.write s.mem a v }

/-! ### Reports and fatal outcomes -/

/-- `report` (00_scope.md R12): records a diagnostic and goes on. -/
def State.report (s : State) (r : Report) : State := { s with reports := s.reports ++ [r] }

/-- `terminate` (00_scope.md R12, 60_exceptions.md R108): the run ends and nothing of the cycle in
progress commits. -/
def terminate (reason : Fault) : Result := .fault reason

/-- SAFE_LO: the parameter's own bound, or the lowest load base of the images loaded, with the
parameter's value while none is (00_scope.md R5; log 10). -/
def State.safeLo (s : State) : Nat :=
  match s.cfg.safeLo with
  | .lowestLoadBase beforeLoad => s.loadFloor.getD beforeLoad
  | .fixed bound => bound

/-- The index lies outside the safe range (R38). -/
def State.unsafeIndex (s : State) (a : Nat) : Bool := decide (a < s.safeLo ∨ s.cfg.safeHi ≤ a)

/-- The MemWarning of R34 and R35, for an access at `addr` that reaches index `a`. -/
def State.warn (s : State) (addr : Word) (a : Nat) : State :=
  if s.unsafeIndex a then s.report (.memWarning addr) else s

/-! ### The console -/

/-- `ConsoleOut(b)` (00_scope.md R11). -/
def State.consolePut (s : State) (b : Byte) : State := { s with consoleOut := s.consoleOut ++ [b] }

/-- `ConsoleOut(b)` and, where CR is translated, a following LF (R35, R99, R100, R101). -/
def State.consolePutCr (translate : Bool) (s : State) (b : Byte) : State :=
  if translate && b == 0x0D then (s.consolePut b).consolePut 0x0A else s.consolePut b

/-! ### The memory interface -/

/-- What a read at an index yields: the status word reads 0x0000 whatever is stored (R34, R36). -/
def State.readIndex (s : State) (a : Nat) : Word := if a = s.cfg.dsrAddr then 0x0000 else s.word a

/-- `MemRead(addr, 1)` (R34), then `next` with the word and the state after the read. -/
def readThen (s : State) (addr : Word) (next : Word → State → Result) : Result :=
  match memIndex s.cfg addr with
  | none => .refused (.outOfRange addr)
  | some a => next (s.readIndex a) (s.warn addr a)

/-- What `MemWrite` does at an index: the data word sends the low byte to the console, the status word
discards, every other word is stored (R35, R36, R37). -/
def State.writeIndex (s : State) (a : Nat) (v : Word) : State :=
  if a = s.cfg.ddrAddr then s.consolePutCr s.cfg.crlfAll (lowByte v)
  else if a = s.cfg.dsrAddr then s
  else s.setWord a v

/-- `MemWrite(addr, 1, v)` (R35). -/
def memWrite (s : State) (addr v : Word) : Result :=
  match memIndex s.cfg addr with
  | none => .refused (.outOfRange addr)
  | some a => .next ((s.warn addr a).writeIndex a v)

/-! ### The call stack -/

/-- `StackPush(v)` (R43). `SPc - 1 < STACK_LIMIT` over the integers is `SPc ≤ STACK_LIMIT`. The store
is direct (R45). -/
def State.stackPush (s : State) (v : Word) : State :=
  if s.spc ≤ s.cfg.stackLimit then s.report (.stackOverflow v)
  else { s with spc := s.spc - 1, mem := Memory.write s.mem (s.spc - 1) v }

/-- `StackPop()` (R44): the value and the state after it. The read is direct (R45). -/
def State.stackPop (s : State) : Word × State :=
  if s.spc = s.cfg.stackTop then (s.cfg.popSentinel, s.report .stackUnderflow)
  else (s.word s.spc, { s with spc := s.spc + 1 })

/-! ### Console input -/

/-- `ConsoleIn()` with a character at hand: it is consumed, once and in order, and the wait is over
(00_scope.md R11, 43_trap.md R103). -/
def State.consume (s : State) (c : Byte) (rest : List Byte) : State :=
  { s with inputPending := rest, inputConsumed := s.inputConsumed ++ [c], waiting := false }

/-- The character-input service (R97, R98, R103, R104): waits while the host has supplied no character;
an interrupt character ends the run; any other goes to R0, zero-extended. -/
def charInput (s : State) : Result :=
  match s.inputPending with
  | [] => .next { s with waiting := true }
  | c :: rest =>
    if c ∈ s.cfg.interruptChars then terminate (.keyboardInterrupt c)
    else .next ((s.consume c rest).setReg 0 (zext c))

/-! ### String output -/

/-- The address after the word of index `a`: "wrapping addresses modulo the address space" (R100). -/
def nextStringAddr (a : Nat) : Word := BitVec.ofNat 16 ((a + 1) % memWords)

/-- The walk of PUTS and PUTSP (R100, R101) over at most `fuel` reads: `emit` outputs one non-zero
word; a zero word ends it. With MEM_WORDS reads the fuel never runs out in a configuration that meets
R5, since the walk comes to the status word, which reads zero (R100; log 11). -/
def stringWalk (emit : State → Word → State) : Nat → Word → State → Result
  | 0, _, s => .next s
  | fuel + 1, addr, s =>
    match memIndex s.cfg addr with
    | none => .refused (.outOfRange addr)
    | some a =>
      if s.readIndex a = 0x0000 then .next (s.warn addr a)
      else stringWalk emit fuel (nextStringAddr a) (emit (s.warn addr a) (s.readIndex a))

/-- PUTS outputs the low byte of a word (R100). -/
def putsWord (s : State) (w : Word) : State := s.consolePutCr s.cfg.crlfAll (lowByte w)

/-- PUTSP outputs the low byte and then the high byte, the latter not where it is zero and
PUTSP_SKIP_ZERO_HIGH holds (R101). -/
def putspWord (s : State) (w : Word) : State :=
  let s1 := s.consolePutCr s.cfg.crlfAll (lowByte w)
  if highByte w ≠ 0x00 ∨ s.cfg.putspSkipZeroHigh = false then
    s1.consolePutCr s1.cfg.crlfAll (highByte w)
  else s1

/-- PUTS: the string at the address in R0, one character per word (R100). -/
def putString (s : State) : Result := stringWalk putsWord memWords (s.reg 0) s

/-- PUTSP: the string at the address in R0, two characters per word (R101). -/
def putPackedString (s : State) : Result := stringWalk putspWord memWords (s.reg 0) s

/-! ### The other shared services and transfers -/

/-- OUT: the low byte of R0, a CR as CR LF (R99). -/
def charOutput (s : State) : Result := .next (s.consolePutCr true (lowByte (s.reg 0)))

/-- HALT: the next PC is 0x0000 (R102). -/
def haltService (s : State) : Result := .next (s.setPc 0x0000)

/-- RET: pops into R7 and jumps to the popped value (42_control.md R89). -/
def returnJump (s : State) : Result :=
  .next ((s.stackPop.2.setReg 7 s.stackPop.1).setPc s.stackPop.1)

/-- JSR and JSRR: pushes the return address, writes it into R7 and goes to `target`
(42_control.md R90, R91). -/
def callTo (s : State) (target : Word) : Result :=
  .next (((s.stackPush s.pc).setReg 7 s.pc).setPc target)

end Sys2Proof.Machine
end

