-- ==== Sys2Proof/Machine/Flags.lean ====
section
/-! DEFINITION. The condition flags (10_state.md R18 to R20; 42_control.md R87). -/

namespace Sys2Proof.Machine

/-- `setcc(v)` (R19). -/
def State.setcc (s : State) (v : Word) : State :=
  { s with
    n := v.getLsbD 15
    z := v == 0x0000
    p := !v.getLsbD 15 && v != 0x0000 }

/-- `x[dr] <- v; setcc(v)`: how the six flag-affecting instructions end (R20). -/
def State.setResult (s : State) (dr : Reg) (v : Word) : State := (s.setReg dr v).setcc v

/-- BR's condition: a requested bit whose flag is set (R87). -/
def State.branchTaken (s : State) (n z p : Bool) : Bool := (n && s.n) || (z && s.z) || (p && s.p)

end Sys2Proof.Machine
end

