-- ==== Sys2Proof/Machine/Control.lean ====
section
/-! DEFINITION. Control transfer, subroutine linkage and the unassigned opcode (42_control.md R86 to
R94; 44_unassigned.md R105). `s.pc` is the incremented PC (30_encoding.md R64). -/

namespace Sys2Proof.Machine

/-- BR (R87). -/
def execBr (n z p : Bool) (off : BitVec 9) (s : State) : Result :=
  .next (if s.branchTaken n z p then s.setPc (pcRelative s.pc off) else s)

/-- JMP (R88). A term with base 7, which no word decodes to, is the return form (30_encoding.md R66). -/
def execJmp (base : Reg) (s : State) : Result :=
  if base = 7 then returnJump s else .next (s.setPc (s.reg base))

/-- RET (R89). -/
def execRet (s : State) : Result := returnJump s

/-- JSR (R90). -/
def execJsr (off : BitVec 11) (s : State) : Result := callTo s (pcRelative s.pc off)

/-- JSRR (R91): the target is read before R7 is written. -/
def execJsrr (base : Reg) (s : State) : Result := callTo s (s.reg base)

/-- RTI (R92): pops into the PC; R7 is not written. -/
def execRti (s : State) : Result := .next (s.stackPop.2.setPc s.stackPop.1)

/-- Opcode 1101 (R105): nothing. -/
def execUnassigned (s : State) : Result := .next s

end Sys2Proof.Machine
end

