-- ==== Sys2Proof/Machine/DataMovement.lean ====
section
/-! DEFINITION. Loads, stores and LEA (41_data_movement.md R78 to R85). -/

namespace Sys2Proof.Machine

/-- LD (R79). -/
def execLd (dr : Reg) (off : BitVec 9) (s : State) : Result :=
  readThen s (pcRelative s.pc off) fun r s1 => .next (s1.setResult dr r)

/-- LDI (R80): the pointer is read first, then the word it points to. -/
def execLdi (dr : Reg) (off : BitVec 9) (s : State) : Result :=
  readThen s (pcRelative s.pc off) fun ptr s1 =>
    readThen s1 ptr fun r s2 => .next (s2.setResult dr r)

/-- LDR (R81). -/
def execLdr (dr base : Reg) (off : BitVec 6) (s : State) : Result :=
  readThen s (baseOffset (s.reg base) off) fun r s1 => .next (s1.setResult dr r)

/-- LEA (R82): no memory access, no flag. -/
def execLea (dr : Reg) (off : BitVec 9) (s : State) : Result :=
  .next (s.setReg dr (pcRelative s.pc off))

/-- ST (R83). -/
def execSt (sr : Reg) (off : BitVec 9) (s : State) : Result :=
  memWrite s (pcRelative s.pc off) (s.reg sr)

/-- STI (R84): the pointer is read before the write. -/
def execSti (sr : Reg) (off : BitVec 9) (s : State) : Result :=
  readThen s (pcRelative s.pc off) fun ptr s1 => memWrite s1 ptr (s.reg sr)

/-- STR (R85). -/
def execStr (sr base : Reg) (off : BitVec 6) (s : State) : Result :=
  memWrite s (baseOffset (s.reg base) off) (s.reg sr)

end Sys2Proof.Machine
end

