-- ==== Sys2Proof/Machine/Operate.lean ====
section
/-! DEFINITION. The operate instructions (40_operate.md R72 to R77): 16-bit sum, AND and complement,
mod 2^16, no carry and no overflow. -/

namespace Sys2Proof.Machine

/-- ADD, register form (R73). -/
def execAddReg (dr sr1 sr2 : Reg) (s : State) : Result :=
  .next (s.setResult dr (s.reg sr1 + s.reg sr2))

/-- ADD, immediate form (R74). -/
def execAddImm (dr sr1 : Reg) (imm : BitVec 5) (s : State) : Result :=
  .next (s.setResult dr (s.reg sr1 + sext imm))

/-- AND, register form (R75). -/
def execAndReg (dr sr1 sr2 : Reg) (s : State) : Result :=
  .next (s.setResult dr (s.reg sr1 &&& s.reg sr2))

/-- AND, immediate form (R76). -/
def execAndImm (dr sr1 : Reg) (imm : BitVec 5) (s : State) : Result :=
  .next (s.setResult dr (s.reg sr1 &&& sext imm))

/-- NOT (R77). -/
def execNot (dr sr : Reg) (s : State) : Result := .next (s.setResult dr (~~~ s.reg sr))

end Sys2Proof.Machine
end

