-- ==== Sys2Proof/Machine/Trap.lean ====
section
/-! DEFINITION. TRAP and its six built-in services (43_trap.md R95 to R104). No service writes the
flags, R7 or the call stack. -/

namespace Sys2Proof.Machine

/-- GETC (R97). -/
def execGetc (s : State) : Result := charInput s

/-- OUT (R99). -/
def execOut (s : State) : Result := charOutput s

/-- PUTS (R100). -/
def execPuts (s : State) : Result := putString s

/-- IN (R98): exactly GETC's behaviour. -/
def execIn (s : State) : Result := charInput s

/-- PUTSP (R101). -/
def execPutsp (s : State) : Result := putPackedString s

/-- HALT (R102). -/
def execHalt (s : State) : Result := haltService s

/-- TRAP (R95): the dispatch on the vector. A word with a service's vector decodes to that service;
every other vector is a no-op (R96). -/
def execTrap (vec : BitVec 8) (s : State) : Result :=
  if vec = 0x20 then charInput s
  else if vec = 0x21 then charOutput s
  else if vec = 0x22 then putString s
  else if vec = 0x23 then charInput s
  else if vec = 0x24 then putPackedString s
  else if vec = 0x25 then haltService s
  else .next s

end Sys2Proof.Machine
end

