-- ==== Sys2Proof/Machine/Dispatch.lean ====
section
/-! DEFINITION. One arm per instruction (30_encoding.md R65). The state is the one after the fetch. -/

namespace Sys2Proof.Machine

def exec (i : Instr) (s : State) : Host.Outcome State Fault Refusal :=
  match i with
  | .br n z p off => Sys2Proof.Machine.execBr n z p off s
  | .addReg dr sr1 sr2 => Sys2Proof.Machine.execAddReg dr sr1 sr2 s
  | .addImm dr sr1 imm => Sys2Proof.Machine.execAddImm dr sr1 imm s
  | .ld dr off => Sys2Proof.Machine.execLd dr off s
  | .st sr off => Sys2Proof.Machine.execSt sr off s
  | .jsrr base => Sys2Proof.Machine.execJsrr base s
  | .jsr off => Sys2Proof.Machine.execJsr off s
  | .andReg dr sr1 sr2 => Sys2Proof.Machine.execAndReg dr sr1 sr2 s
  | .andImm dr sr1 imm => Sys2Proof.Machine.execAndImm dr sr1 imm s
  | .ldr dr base off => Sys2Proof.Machine.execLdr dr base off s
  | .str sr base off => Sys2Proof.Machine.execStr sr base off s
  | .rti => Sys2Proof.Machine.execRti s
  | .notReg dr sr => Sys2Proof.Machine.execNot dr sr s
  | .ldi dr off => Sys2Proof.Machine.execLdi dr off s
  | .sti sr off => Sys2Proof.Machine.execSti sr off s
  | .ret => Sys2Proof.Machine.execRet s
  | .jmp base => Sys2Proof.Machine.execJmp base s
  | .unassigned => Sys2Proof.Machine.execUnassigned s
  | .lea dr off => Sys2Proof.Machine.execLea dr off s
  | .trap vec => Sys2Proof.Machine.execTrap vec s
  | .getc => Sys2Proof.Machine.execGetc s
  | .out => Sys2Proof.Machine.execOut s
  | .puts => Sys2Proof.Machine.execPuts s
  | .inChar => Sys2Proof.Machine.execIn s
  | .putsp => Sys2Proof.Machine.execPutsp s
  | .halt => Sys2Proof.Machine.execHalt s

end Sys2Proof.Machine
end

