-- ==== Sys2Proof/Machine/Cycle.lean ====
section
/-! DEFINITION. The instruction cycle: fetch, decode and dispatch, commit, halt detection
(30_encoding.md R64 to R68), the two-phase latch (10_state.md R27) and one step of the run driver
(70_reset_and_hazards.md R125). -/

namespace Sys2Proof.Machine

/-- The state in which the handler runs, once word `w` is fetched (R64): IR holds the word and the PC
is incremented. `s` carries the fetch's warning. The wait flag is cleared: only a character-input
service that finds no character sets it again. -/
def State.fetched (s : State) (w : Word) : State :=
  { s with ir := w, pc := s.pc + 1, waiting := false }

/-- What a cycle that waits leaves (43_trap.md R103): the latched state (R0 to R7, PC, N, Z, P, IR) is
the current one, since nothing commits; what is not latched is as the cycle has made it (R27). -/
def State.dropLatch (cur t : State) : State :=
  { t with regs := cur.regs, pc := cur.pc, n := cur.n, z := cur.z, p := cur.p, ir := cur.ir }

/-- Commit (R67): the next state replaces the current one and the counter increases by 1. -/
def State.commit (t : State) : State := { t with counter := t.counter + 1 }

/-- Halt detection at a cycle boundary (R68). -/
def State.boundary (s : State) : State := if s.pc = 0x0000 then { s with halted := true } else s

/-- How a cycle that began in `cur` ends, from what its handler answered: a wait commits nothing, a
completed handler commits, a fatal outcome or a refusal stops the run (R67, R103, R104). -/
def finishCycle (cur : State) (r : Result) : Result :=
  match r with
  | .next t => if t.waiting then .next (cur.dropLatch t) else .next t.commit.boundary
  | .fault f => .fault f
  | .refused f => .refused f

/-- One cycle (R64, R65, R67, R68). A cycle that was waiting has made its fetch, and its report,
already (R103; log 5). -/
def cycle (s : State) : Result :=
  readThen s s.pc fun w s1 =>
    finishCycle s (exec (decode w) ((if s.waiting then s else s1).fetched w))

/-- `RunFor(1)` of R125: halt detection, then one cycle unless the machine is halted (log 4). -/
def runOne (s : State) : Result :=
  if s.halted then .next s
  else if s.pc = 0x0000 then .next s.boundary
  else cycle s

/-- Where a program is placed when the PC is one nothing can be fetched from. -/
def spareEntry (c : Config) : Word := if c.dsrAddr = 0x3000 then 0x3001 else 0x3000

/-- The next step fetches the word stored at `pc`: the machine runs, the PC is not 0x0000, its address
reaches a word, and that word is not the status word, which reads 0x0000. -/
def State.canFetch (s : State) : Bool :=
  !s.halted && decide (s.pc ≠ 0x0000) && decide ((memIndex s.cfg s.pc).getD s.cfg.dsrAddr ≠ s.cfg.dsrAddr)

/-- `s` with the word `w` where the next step fetches, standing for a load and the setting of the entry
PC (70 R122, R123; log 14): where `s` cannot fetch from its PC, the program is placed at a spare entry
and the PC set to it. No wait is in progress then. -/
def State.placeFetchWord (s : State) (w : Word) : State :=
  let entry := if s.canFetch then s.pc else spareEntry s.cfg
  let t := { s with pc := entry, halted := false, waiting := false }
  t.setWord ((memIndex s.cfg entry).getD 0) w

end Sys2Proof.Machine
end

