-- ==== Sys2Proof/Machine/Step.lean ====
section
/-! DEFINITION. One step of the machine, and the placing of the word it fetches. -/

namespace Sys2Proof.Machine

/-- One step: `RunFor(1)` of the run driver (70_reset_and_hazards.md R125). -/
def step (s : State) : Host.Outcome State Fault Refusal := runOne s

/-- The state with the instruction whose bits are `w` where `step` fetches its next instruction. -/
def State.withFetchWord (s : State) (nbits w : Nat) : State :=
  s.placeFetchWord (BitVec.ofNat 16 (w % 2 ^ nbits))

end Sys2Proof.Machine
end

