-- ==== Sys2Proof/Machine/HostOps.lean ====
section
/-! DEFINITION. What the host does to the machine between cycles: loading, the entry point, console
input, the run driver, the dumps, and the requests of a whole session (00_scope.md R4;
70_reset_and_hazards.md R122 to R127). A request the rules rule out is refused (log 24). -/

namespace Sys2Proof.Machine

/-- `first`, then `rest` on its next state; a stop stays a stop. -/
def followedBy (first : Result) (rest : State → Result) : Result :=
  match first with
  | .next t => rest t
  | .fault f => .fault f
  | .refused f => .refused f

/-! ### When the host may act (00_scope.md R4, R126) -/

/-- Before the first cycle of a session: no cycle has begun, and no run has ended. -/
def State.beforeFirstCycle (s : State) : Bool := !s.waiting && !s.halted && s.counter == 0

/-! ### Loading (R122) -/

/-- `M[base + i - 1] <- wi`: direct stores, in file order. -/
def State.storeWords (s : State) (base : Nat) (ws : List Word) : State :=
  match ws with
  | [] => s
  | w :: rest => State.storeWords (s.setWord base w) (base + 1) rest

/-- The lowest load base of the images loaded, SAFE_LO's reference (00_scope.md R5; log 10). -/
def State.noteLoadBase (s : State) (base : Nat) : State :=
  { s with loadFloor := some (min base (s.loadFloor.getD base)) }

/-- `Load(w0 .. wn)` (R122), "before the run" (R126): none stands for an image that cannot be read. -/
def load (image : Option (List Word)) (s : State) : Result :=
  if s.beforeFirstCycle then
    match image with
    | none => terminate .imageUnreadable
    | some [] => terminate .imageEmpty
    | some (base :: ws) =>
      if memWords < base.toNat + ws.length then terminate .imageTooLarge
      else .next ((s.storeWords base.toNat ws).noteLoadBase base.toNat)
  else .refused .hostOutOfTurn

/-- Several images in turn, "merged additively into Memory" (R122). -/
def loadAll (images : List (Option (List Word))) (s : State) : Result :=
  match images with
  | [] => .next s
  | image :: rest => followedBy (load image s) (loadAll rest)

/-- The entry point: PC = ENTRY_PC "before the first cycle" (R123, R126). -/
def setEntry (entry : Word) (s : State) : Result :=
  if s.beforeFirstCycle then .next (s.setPc entry) else .refused .hostOutOfTurn

/-- The load base of the first image: ENTRY_PC's reference (R123). -/
def firstLoadBase (images : List (Option (List Word))) : Option Word :=
  images.head?.join.bind List.head?

/-- The boot order of R124 after reset: load every image, then set the entry PC. -/
def boot (images : List (Option (List Word))) (s : State) : Result :=
  followedBy (loadAll images s) fun t =>
    match firstLoadBase images with
    | some entry => setEntry entry t
    | none => .next t

/-! ### Console input (R103, R126) -/

/-- Characters put at the end of the pending ones, whenever the host makes them known to the model
(log 6). The host's own interaction is `Session.consoleInput`, which needs a wait. -/
def State.supplyInput (s : State) (cs : List Byte) : State :=
  { s with inputPending := s.inputPending ++ cs }

/-! ### Sessions and the run driver (R125, R127) -/

/-- Where a session of the host stands. -/
inductive Session where
  /-- At a cycle boundary: before a run, or after one that halted or used up its count. -/
  | ready (s : State)
  /-- Inside a run, in a cycle that waits for a character (43_trap.md R103), with the cycles the run
  still has to do, this one included; none for `RunToHalt`. -/
  | blocked (s : State) (left : Option Nat)
  /-- A fatal outcome; `last` is what remains, and the host reads nothing further (R127). -/
  | terminated (reason : Fault) (last : State)
  /-- The host has ended the process (R126, `terminate`). -/
  | closed
  /-- The run is refused. -/
  | refused (why : Refusal)
  deriving DecidableEq, Repr

/-- `while k > 0 and halted == 0: Step(); k <- k - 1` (R125). `k` goes down when a whole `Step` is done,
so a cycle that waits leaves it as it is, for the loop to go on with. -/
def runLoop : Nat → State → Session
  | 0, s => .ready s
  | k + 1, s =>
    if s.halted then .ready s
    else match cycle s with
      | .next t => if t.waiting then .blocked t (some (k + 1)) else runLoop k t
      | .fault f => .terminated f s
      | .refused q => .refused q

/-- `RunFor(n)` (R125): halt detection, then at most n cycles. -/
def runFor (n : Nat) (s : State) : Session :=
  if s.waiting then .refused .hostOutOfTurn else runLoop n s.boundary

/-- A bounded loop as a stretch of `RunToHalt`'s: none where it neither halts, stops nor waits within
the bound. -/
def Session.untilHalt (e : Session) : Option Session :=
  match e with
  | .ready s => if s.halted then some (.ready s) else none
  | .blocked s _ => some (.blocked s none)
  | .terminated f last => some (.terminated f last)
  | .closed => some .closed
  | .refused q => some (.refused q)

/-- `RunToHalt()` (R125), followed for at most `bound` cycles: none where those do not end it, for
`RunToHalt` itself has no bound and may run for ever (R127; log 22). -/
def runToHalt (bound : Nat) (s : State) : Option Session := (runFor bound s).untilHalt

/-- A blocked run gets its character and goes on with the cycles it has left (R103, R125, R126 "only
while a GETC/IN waits"); `bound` is for a `RunToHalt`, as above. -/
def Session.consoleInput (bound : Nat) (c : Byte) (session : Session) : Option Session :=
  match session with
  | .blocked s (some left) => some (runLoop left (s.supplyInput [c]))
  | .blocked s none => (runLoop bound (s.supplyInput [c])).untilHalt
  | .ready _ | .terminated _ _ | .closed | .refused _ => some (.refused .hostOutOfTurn)

/-- The condition a run is in (R127). -/
inductive RunCondition where
  | halted
  | terminated (reason : Fault)
  | suspended
  | waiting
  deriving DecidableEq, Repr

/-- The condition of a session's run (R127); none where the host has ended the process or the run was
refused (20_memory.md R39). -/
def Session.condition (session : Session) : Option RunCondition :=
  match session with
  | .ready s => some (if s.halted then .halted else .suspended)
  | .blocked _ _ => some .waiting
  | .terminated f _ => some (.terminated f)
  | .closed | .refused _ => none

/-! ### Dumps (R126) -/

/-- A dump of `len` words from `lo`: the words of M, not through MemRead. An index past the last word
of M shows 0x0000; the spec does not say what a range that runs past M shows (DESIGN CHOICE, log 23). -/
def dumpMemory (s : State) (lo len : Nat) : List Word := (List.range len).map fun k => s.word (lo + k)

/-- What a register dump shows. -/
structure RegisterDump where
  regs : Vector Word 8
  pc : Word
  n : Bool
  z : Bool
  p : Bool
  ir : Word
  counter : Nat
  deriving DecidableEq, Repr

/-- A dump of the registers and flags: their committed values. -/
def dumpRegisters (s : State) : RegisterDump :=
  { regs := s.regs, pc := s.pc, n := s.n, z := s.z, p := s.p, ir := s.ir, counter := s.counter }

/-! ### The host's requests (R126) -/

/-- The rows of R126 that the host sends; console output is the state's `consoleOut`. -/
inductive HostRequest where
  | load (image : Option (List Word))
  | setEntry (entry : Word)
  | runToHalt
  | runFor (n : Nat)
  | dumpMemory (lo len : Nat)
  | dumpRegisters
  | terminate
  | consoleInput (c : Byte)
  deriving DecidableEq, Repr

/-- What the core returns to a request beside the session's new standing. -/
inductive HostReply where
  | nothing
  | words (ws : List Word)
  | registers (d : RegisterDump)
  deriving DecidableEq, Repr

/-- The session after an operation on the state `s` that is no run. -/
def Session.ofResult (s : State) (r : Result) : Session :=
  match r with
  | .next t => .ready t
  | .fault f => .terminated f s
  | .refused q => .refused q

/-- A request at a cycle boundary: every row of R126 but console input. -/
def performReady (bound : Nat) (request : HostRequest) (s : State) : Option (Session × HostReply) :=
  match request with
  | .load image => some (.ofResult s (load image s), .nothing)
  | .setEntry entry => some (.ofResult s (setEntry entry s), .nothing)
  | .runToHalt => (runToHalt bound s).map fun e => (e, .nothing)
  | .runFor n => some (runFor n s, .nothing)
  | .dumpMemory lo len => some (.ready s, .words (dumpMemory s lo len))
  | .dumpRegisters => some (.ready s, .registers (dumpRegisters s))
  | .terminate => some (.closed, .nothing)
  | .consoleInput _ => some (.refused .hostOutOfTurn, .nothing)

/-- A request of the host (R126): at a boundary all but console input, in a wait console input alone
(00_scope.md R4), after the end none. None only where `bound` cycles do not end a `RunToHalt`. -/
def perform (bound : Nat) (request : HostRequest) (session : Session) : Option (Session × HostReply) :=
  match session with
  | .ready s => performReady bound request s
  | .blocked s left =>
    match request with
    | .consoleInput c =>
      ((Session.blocked s left).consoleInput bound c).map fun e => (e, .nothing)
    | .load _ | .setEntry _ | .runToHalt | .runFor _ | .dumpMemory _ _ | .dumpRegisters | .terminate =>
      some (.refused .hostOutOfTurn, .nothing)
  | .terminated _ _ | .closed | .refused _ => some (.refused .hostOutOfTurn, .nothing)

end Sys2Proof.Machine
end

