-- ==== Sys2Proof/Safety.lean ====
section
/-! DEFINITION. The terms the claims use: bit slices, what an access yields, what a result leaves
unchanged, the machine's invariant, which instruction a step runs, balanced runs, and the run to halt. -/

namespace Sys2Proof.Machine

/-! ### Values -/

/-- `v[hi:lo]`: the unsigned value of bits `hi` down to `lo` (00_scope.md R6). -/
def slice (v : Word) (hi lo : Nat) : Nat := v.toNat / 2 ^ lo % 2 ^ (hi - lo + 1)

/-- The flags a 16-bit result leaves (10_state.md R19), read off its unsigned value. -/
def FlagsFrom (v : Word) (t : State) : Prop :=
  (t.n = true ↔ 0x8000 ≤ v.toNat) ∧ (t.z = true ↔ v.toNat = 0) ∧
  (t.p = true ↔ 0 < v.toNat ∧ v.toNat < 0x8000)

/-- The bytes a console output of `b` amounts to, CR being followed by LF where it is translated
(43_trap.md R99). -/
def crBytes (translate : Bool) (b : Byte) : List Byte :=
  if translate = true ∧ b.toNat = 0x0D then [b, 0x0A] else [b]

/-- The MemWarning of an access at `addr` that reaches index `a`, if any (20_memory.md R38). -/
def warnings (s : State) (addr : Word) (a : Nat) : List Report :=
  if a < s.safeLo ∨ s.cfg.safeHi ≤ a then [.memWarning addr] else []

/-- What a read of index `a` yields (20_memory.md R34, R36). -/
def loaded (s : State) (a : Nat) : Word := if a = s.cfg.dsrAddr then 0x0000 else s.word a

/-! ### What a state change leaves unchanged -/

/-- Every general register but `r`. -/
def SameRegsBut (r : Reg) (s t : State) : Prop := ∀ q : Reg, q ≠ r → t.reg q = s.reg q

/-- Every general register. -/
def SameRegs (s t : State) : Prop := ∀ q : Reg, t.reg q = s.reg q

/-- The three flags. -/
def SameFlags (s t : State) : Prop := t.n = s.n ∧ t.z = s.z ∧ t.p = s.p

/-- Every word of memory but the one at index `a`. -/
def SameMemoryBut (a : Nat) (s t : State) : Prop := ∀ b, b ≠ a → t.word b = s.word b

/-- Every word of memory. -/
def SameMemory (s t : State) : Prop := ∀ b, t.word b = s.word b

/-- The console input: consumed and pending characters and the wait flag. -/
def SameInput (s t : State) : Prop :=
  t.inputConsumed = s.inputConsumed ∧ t.inputPending = s.inputPending ∧ t.waiting = s.waiting

/-- What no handler writes: the parameters, IR, the halted flag, the instruction counter and the load
floor. -/
def SameEngine (s t : State) : Prop :=
  t.cfg = s.cfg ∧ t.ir = s.ir ∧ t.halted = s.halted ∧ t.counter = s.counter ∧
    t.loadFloor = s.loadFloor

/-- Nothing but general registers, flags and the PC may differ. -/
def SameOutside (s t : State) : Prop :=
  SameMemory s t ∧ t.spc = s.spc ∧ t.consoleOut = s.consoleOut ∧ t.reports = s.reports ∧
    SameInput s t ∧ SameEngine s t

/-- Nothing but general registers, flags, the PC and the reports may differ. -/
def SameButReports (s t : State) : Prop :=
  SameMemory s t ∧ t.spc = s.spc ∧ t.consoleOut = s.consoleOut ∧ SameInput s t ∧ SameEngine s t

/-- What a store of `v` to index `a` does (20_memory.md R35, R36, R37): the data word sends the low
byte to the console, the status word takes nothing, any other word takes the value; every other word
keeps its value. -/
def StoreEffect (a : Nat) (v : Word) (s t : State) : Prop :=
  SameMemoryBut a s t ∧
  (a = s.cfg.ddrAddr →
    t.word a = s.word a ∧ t.consoleOut = s.consoleOut ++ crBytes s.cfg.crlfAll (v.setWidth 8)) ∧
  (a ≠ s.cfg.ddrAddr → t.consoleOut = s.consoleOut) ∧
  (a ≠ s.cfg.ddrAddr → a = s.cfg.dsrAddr → t.word a = s.word a) ∧
  (a ≠ s.cfg.ddrAddr → a ≠ s.cfg.dsrAddr → t.word a = v)

/-- What a push of `v` does (20_memory.md R43): on a full stack a report and nothing else, otherwise
the cursor goes down by one and the word there takes the value. -/
def PushEffect (v : Word) (s t : State) : Prop :=
  ((s.spc : Int) - 1 < s.cfg.stackLimit →
    t.spc = s.spc ∧ SameMemory s t ∧ t.reports = s.reports ++ [.stackOverflow v]) ∧
  (¬ (s.spc : Int) - 1 < s.cfg.stackLimit →
    t.spc + 1 = s.spc ∧ t.word t.spc = v ∧ SameMemoryBut t.spc s t ∧ t.reports = s.reports)

/-- What a pop that yields `v` does (20_memory.md R44): on an empty stack a report and the sentinel,
otherwise the word at the cursor, and the cursor goes up by one. -/
def PopEffect (v : Word) (s t : State) : Prop :=
  SameMemory s t ∧
  (s.spc = s.cfg.stackTop →
    v = s.cfg.popSentinel ∧ t.spc = s.spc ∧ t.reports = s.reports ++ [.stackUnderflow]) ∧
  (s.spc ≠ s.cfg.stackTop → v = s.word s.spc ∧ t.spc = s.spc + 1 ∧ t.reports = s.reports)

/-! ### The invariant -/

/-- What every reachable state meets: the parameters meet R5, memory is in its canonical form (so that
every listed index is inside the memory), the cursor is in its range (10_state.md R25), at most one
flag is set (R18), the machine is halted only at PC = 0x0000 (R23), and a waiting machine is not
halted and not at PC = 0x0000 (43_trap.md R103). -/
def MachineInv (s : State) : Prop :=
  s.cfg.wf = true ∧ Memory.wf s.mem = true ∧
  (s.cfg.stackLimit ≤ s.spc ∧ s.spc ≤ s.cfg.stackTop) ∧
  ¬ (s.n = true ∧ s.z = true) ∧ ¬ (s.n = true ∧ s.p = true) ∧ ¬ (s.z = true ∧ s.p = true) ∧
  (s.halted = true → s.pc = 0x0000) ∧
  (s.waiting = true → s.halted = false ∧ s.pc ≠ 0x0000)

/-! ### Which instructions write what -/

/-- The general register an instruction writes (10_state.md R15). -/
def destReg : Instr → Option Reg
  | .addReg dr _ _ | .addImm dr _ _ | .andReg dr _ _ | .andImm dr _ _ | .notReg dr _
  | .ld dr _ | .ldi dr _ | .ldr dr _ _ | .lea dr _ => some dr
  | .jsr _ | .jsrr _ | .ret => some 7
  | .getc | .inChar => some 0
  | .br _ _ _ _ | .st _ _ | .sti _ _ | .str _ _ _ | .rti | .jmp _ | .unassigned | .trap _
  | .out | .puts | .putsp | .halt => none

/-- The destination of an instruction that calls setcc (10_state.md R20). -/
def flagDest : Instr → Option Reg
  | .addReg dr _ _ | .addImm dr _ _ | .andReg dr _ _ | .andImm dr _ _ | .notReg dr _
  | .ld dr _ | .ldi dr _ | .ldr dr _ _ => some dr
  | .lea _ _ | .jsr _ | .jsrr _ | .ret | .getc | .inChar | .br _ _ _ _ | .st _ _ | .sti _ _
  | .str _ _ _ | .rti | .jmp _ | .unassigned | .trap _ | .out | .puts | .putsp | .halt => none

/-- BR, the one reader of the flags (10_state.md R20). -/
def readsFlags : Instr → Bool
  | .br _ _ _ _ => true
  | .addReg _ _ _ | .addImm _ _ _ | .andReg _ _ _ | .andImm _ _ _ | .notReg _ _
  | .ld _ _ | .ldi _ _ | .ldr _ _ _ | .lea _ _ | .jsr _ | .jsrr _ | .ret | .getc | .inChar
  | .st _ _ | .sti _ _ | .str _ _ _ | .rti | .jmp _ | .unassigned | .trap _ | .out | .puts
  | .putsp | .halt => false

/-- The stores through the memory interface (41_data_movement.md R83 to R85). -/
def isStore : Instr → Bool
  | .st _ _ | .sti _ _ | .str _ _ _ => true
  | .br _ _ _ _ | .addReg _ _ _ | .addImm _ _ _ | .andReg _ _ _ | .andImm _ _ _ | .notReg _ _
  | .ld _ _ | .ldi _ _ | .ldr _ _ _ | .lea _ _ | .jsr _ | .jsrr _ | .ret | .getc | .inChar
  | .rti | .jmp _ | .unassigned | .trap _ | .out | .puts | .putsp | .halt => false

/-- The instructions that push the call stack (42_control.md R86). -/
def isCall : Instr → Bool
  | .jsr _ | .jsrr _ => true
  | .br _ _ _ _ | .addReg _ _ _ | .addImm _ _ _ | .andReg _ _ _ | .andImm _ _ _ | .notReg _ _
  | .ld _ _ | .ldi _ _ | .ldr _ _ _ | .lea _ _ | .ret | .getc | .inChar | .st _ _ | .sti _ _
  | .str _ _ _ | .rti | .jmp _ | .unassigned | .trap _ | .out | .puts | .putsp | .halt => false

/-- The instructions that pop the call stack (42_control.md R86). -/
def isReturn : Instr → Bool
  | .ret | .rti => true
  | .br _ _ _ _ | .addReg _ _ _ | .addImm _ _ _ | .andReg _ _ _ | .andImm _ _ _ | .notReg _ _
  | .ld _ _ | .ldi _ _ | .ldr _ _ _ | .lea _ _ | .jsr _ | .jsrr _ | .getc | .inChar | .st _ _
  | .sti _ _ | .str _ _ _ | .jmp _ | .unassigned | .trap _ | .out | .puts | .putsp | .halt => false

/-- The two character-input services (43_trap.md R97, R98). -/
def isCharInput : Instr → Bool
  | .getc | .inChar => true
  | .br _ _ _ _ | .addReg _ _ _ | .addImm _ _ _ | .andReg _ _ _ | .andImm _ _ _ | .notReg _ _
  | .ld _ _ | .ldi _ _ | .ldr _ _ _ | .lea _ _ | .jsr _ | .jsrr _ | .ret | .st _ _ | .sti _ _
  | .str _ _ _ | .rti | .jmp _ | .unassigned | .trap _ | .out | .puts | .putsp | .halt => false

/-! ### Runs -/

/-- The next step of `s` is a cycle whose fetched word is `w` (30_encoding.md R64): the machine is not
halted, the PC is not 0x0000, and its address reaches a word that reads as `w`. -/
def Fetches (s : State) (w : Word) : Prop :=
  s.halted = false ∧ s.pc ≠ 0x0000 ∧ ∃ a, memIndex s.cfg s.pc = some a ∧ loaded s a = w

/-- The next step of `s` is a cycle that runs `i`. -/
def Runs (s : State) (i : Instr) : Prop := ∃ w, Fetches s w ∧ decode w = i

/-- The live call-stack entries, from the cursor of `s` up, are the same words in `t`. -/
def SameEntries (s t : State) : Prop := ∀ a, s.spc ≤ a → a < s.cfg.stackTop → t.word a = s.word a

/-- A run from one state to another in which calls and returns match: steps that leave the cursor and
the live entries alone, and calls that are not made on a full stack, each followed by a run of the
same kind and a return (42_control.md R93: "provided the program has not stored into the stack
entries"). -/
inductive Balanced : State → State → Prop where
  | done (s : State) : Balanced s s
  | plain {s s1 t : State} (stepped : step s = .next s1) (cursor : s1.spc = s.spc)
      (entries : SameEntries s s1) (rest : Balanced s1 t) : Balanced s t
  | nested {s s1 s2 s3 t : State} {call back : Instr} (runsCall : Runs s call)
      (isACall : isCall call = true) (notFull : s.cfg.stackLimit < s.spc)
      (stepped : step s = .next s1) (body : Balanced s1 s2) (runsBack : Runs s2 back)
      (isAReturn : isReturn back = true) (returned : step s2 = .next s3) (rest : Balanced s3 t) :
      Balanced s t

/-- `n` steps of the machine, stopping where one stops. -/
def stepTimes : Nat → State → Result
  | 0, s => .next s
  | n + 1, s => followedBy (step s) (stepTimes n)

/-- A bounded run's standing `e` is what `n` steps from `s` give (70_reset_and_hazards.md R125): all of
them done, each a committed cycle unless the machine has halted; or a wait in the cycle after `j`
committed ones, with the cycles not yet done left to do; or the stop the steps come to, and for a fatal
outcome the state it came in. -/
def AgreesWithSteps (n : Nat) (s : State) (e : Session) : Prop :=
  match e with
  | .ready t => stepTimes n s = .next t ∧ (t.halted = false → t.counter = s.counter + n)
  | .blocked t left => ∃ j, j < n ∧ left = some (n - j) ∧ stepTimes (j + 1) s = .next t ∧
      t.waiting = true ∧ t.counter = s.counter + j
  | .terminated f last => stepTimes n s = .fault f ∧ ∃ j, j < n ∧ stepTimes j s = .next last
  | .closed => False
  | .refused q => stepTimes n s = .refused q

/-- `RunToHalt` comes back with `e` (70_reset_and_hazards.md R125, R127): halted, terminated, in a wait,
or refused. It does not where the run goes on for ever. -/
def RunsToHalt (s : State) (e : Session) : Prop := ∃ bound, runToHalt bound s = some e

/-- What every standing a session reaches meets: the machine's invariant, no wait at a boundary, and in
a wait no character at hand and at least the waiting cycle left to do. -/
def SessionInv (session : Session) : Prop :=
  match session with
  | .ready s => MachineInv s ∧ s.waiting = false
  | .blocked s left => MachineInv s ∧ s.waiting = true ∧ s.inputPending = [] ∧ left ≠ some 0
  | .terminated _ last => MachineInv last
  | .closed | .refused _ => True

/-- The outcome with the state that no rule reads put away: the reports and the load floor that only
they depend on, the instruction counter, IR, the console output and the record of consumed input. -/
def eraseWriteOnly (r : Result) : Result :=
  match r with
  | .next t =>
    .next { t with reports := [], loadFloor := none, counter := 0, ir := 0, consoleOut := [],
                   inputConsumed := [] }
  | .fault f => .fault f
  | .refused f => .refused f

/-- The outcome with the flags put away. -/
def eraseFlags (r : Result) : Result :=
  match r with
  | .next t => .next { t with n := false, z := false, p := false }
  | .fault f => .fault f
  | .refused f => .refused f

end Sys2Proof.Machine
end

