-- ==== Sys2Proof/Certificates/Slice0/Obligations.lean ====
section
/-! DEFINITION. The statements for the provers. Field positions, opcode values and trap vectors in the
encoding clauses are the spec's decisions D1, D2, D3 (log 16). `exec` acts on the state after the
fetch, so `s.pc` is the incremented PC there (30_encoding.md R64). -/

open Sys2Proof Sys2Proof.Machine

/-! ### Encoding -/

/-- Decoding the canonical word of a well-formed instruction gives the instruction back, every operand
at every value (the layout is the spec's decisions D1, D2, D3; log 16). -/
def Obligations.DecodeOfEncodeIsTheInstruction : Prop :=
  ∀ i : Instr, i.wf = true → decode (encode i) = i

/-- Every word is taken by exactly one of the 20 rows of the opcode table that are no service names,
it is the row of the instruction it decodes to, and that instruction is well-formed (30_encoding.md R65). -/
def Obligations.EveryWordSelectsItsOneTableRow : Prop :=
  ∀ w : Word, coreRows.filter (fun r => r.takes w) = [(decode w).coreRow] ∧ (decode w).wf = true

/-- Changing ignored bits of a word does not change what it decodes to (30_encoding.md R69, the spec's
decision D4; log 16). -/
def Obligations.IgnoredBitsDoNotChangeTheInstruction : Prop :=
  ∀ w m : Word, decode (w ^^^ (m &&& ignoredBits w)) = decode w

/-- The canonical word of what a word decodes to differs from the word in ignored bits only (log 13,
log 16). -/
def Obligations.EncodeOfDecodeDiffersInIgnoredBitsOnly : Prop :=
  ∀ w : Word, (encode (decode w) ^^^ w) &&& ~~~ ignoredBits w = 0

/-- Words written out from the encodings of 95_test_vectors.md decode to the instructions they stand
for, at least one of every family. -/
def Obligations.WrittenOutWordsDecodeAsTheSpecSays : Prop :=
  decode 0x107D = .addImm 0 1 0b11101 ∧ decode 0x105A = .addReg 0 1 2 ∧
  decode 0xA7FE = .ldi 3 0x1FE ∧ decode 0x74C4 = .str 2 3 4 ∧
  decode 0x0A05 = .br true false true 5 ∧ decode 0xCEBF = .jmp 2 ∧ decode 0xCFFF = .ret ∧
  decode 0x46FF = .jsrr 3 ∧ decode 0x4C00 = .jsr 0x400 ∧ decode 0xD123 = .unassigned ∧
  decode 0xFF25 = .halt ∧ decode 0xF026 = .trap 0x26

/-! ### Values and addresses -/

/-- 00_scope.md R8: sign and zero extension of an N-bit field, for the widths in use. -/
def Obligations.ExtensionKeepsTheFieldsValue : Prop :=
  (∀ N : Nat, N = 5 ∨ N = 6 ∨ N = 9 ∨ N = 11 → ∀ v : BitVec N,
    (sext v).toNat = (if 2 ^ (N - 1) ≤ v.toNat then v.toNat + (2 ^ 16 - 2 ^ N) else v.toNat) ∧
    (sext v).toInt = v.toInt) ∧
  ∀ N : Nat, N ≤ 16 → ∀ v : BitVec N, (zext v).toNat = v.toNat

/-- 41_data_movement.md R78 (the spec's decision D32): an effective address is the exact sum taken
mod 2^16. -/
def Obligations.EffectiveAddressesAreSumsModulo65536 : Prop :=
  (∀ (pc : Word) (off : BitVec 9), pcRelative pc off = BitVec.ofInt 16 (pc.toNat + off.toInt)) ∧
  (∀ (pc : Word) (off : BitVec 11), pcRelative pc off = BitVec.ofInt 16 (pc.toNat + off.toInt)) ∧
  ∀ (base : Word) (off : BitVec 6), baseOffset base off = BitVec.ofInt 16 (base.toNat + off.toInt)

/-- 20_memory.md R32 (the spec's decision D5; log 8): the index an address reaches. -/
def Obligations.AddressReductionFollowsThePolicy : Prop :=
  ∀ (c : Config) (addr : Word),
    (addr.toNat < 32768 → memIndex c addr = some addr.toNat) ∧
    (c.oorPolicy = .aliasLow → memIndex c addr = some (addr.toNat % 32768)) ∧
    (c.oorPolicy = .refuse → 32768 ≤ addr.toNat → memIndex c addr = none)

/-- 10_state.md R19: `setcc` writes the three flags from a 16-bit result, exactly one of them set, and
nothing else. -/
def Obligations.SetccSetsExactlyTheFlagOfTheResult : Prop :=
  ∀ (s : State) (v : Word),
    FlagsFrom v (s.setcc v) ∧
    [(s.setcc v).n, (s.setcc v).z, (s.setcc v).p].count true = 1 ∧
    SameRegs s (s.setcc v) ∧ (s.setcc v).pc = s.pc ∧ SameOutside s (s.setcc v)

/-! ### Operate instructions -/

/-- 40_operate.md R73: ADD, register form. -/
def Obligations.AddRegisterFormAddsModulo65536 : Prop :=
  (∀ (dr sr1 sr2 : Reg) (ignored : BitVec 2),
    decode (0b0001#4 ++ Reg.field dr ++ Reg.field sr1 ++ 0b0#1 ++ ignored ++ Reg.field sr2) =
      .addReg dr sr1 sr2) ∧
  ∀ (dr sr1 sr2 : Reg) (s : State), ∃ t, exec (.addReg dr sr1 sr2) s = .next t ∧
    t.reg dr = BitVec.ofNat 16 ((s.reg sr1).toNat + (s.reg sr2).toNat) ∧ FlagsFrom (t.reg dr) t ∧
    SameRegsBut dr s t ∧ t.pc = s.pc ∧ SameOutside s t

/-- 40_operate.md R74: ADD, immediate form. -/
def Obligations.AddImmediateFormAddsTheSignedField : Prop :=
  (∀ (dr sr1 : Reg) (imm : BitVec 5),
    decode (0b0001#4 ++ Reg.field dr ++ Reg.field sr1 ++ 0b1#1 ++ imm) = .addImm dr sr1 imm) ∧
  ∀ (dr sr1 : Reg) (imm : BitVec 5) (s : State), ∃ t, exec (.addImm dr sr1 imm) s = .next t ∧
    t.reg dr = BitVec.ofInt 16 ((s.reg sr1).toNat + imm.toInt) ∧ FlagsFrom (t.reg dr) t ∧
    SameRegsBut dr s t ∧ t.pc = s.pc ∧ SameOutside s t

/-- 40_operate.md R75: AND, register form. -/
def Obligations.AndRegisterFormAndsBitByBit : Prop :=
  (∀ (dr sr1 sr2 : Reg) (ignored : BitVec 2),
    decode (0b0101#4 ++ Reg.field dr ++ Reg.field sr1 ++ 0b0#1 ++ ignored ++ Reg.field sr2) =
      .andReg dr sr1 sr2) ∧
  ∀ (dr sr1 sr2 : Reg) (s : State), ∃ t, exec (.andReg dr sr1 sr2) s = .next t ∧
    (∀ k, k < 16 → (t.reg dr).getLsbD k = ((s.reg sr1).getLsbD k && (s.reg sr2).getLsbD k)) ∧
    FlagsFrom (t.reg dr) t ∧ SameRegsBut dr s t ∧ t.pc = s.pc ∧ SameOutside s t

/-- 40_operate.md R76: AND, immediate form. -/
def Obligations.AndImmediateFormAndsTheExtendedField : Prop :=
  (∀ (dr sr1 : Reg) (imm : BitVec 5),
    decode (0b0101#4 ++ Reg.field dr ++ Reg.field sr1 ++ 0b1#1 ++ imm) = .andImm dr sr1 imm) ∧
  ∀ (dr sr1 : Reg) (imm : BitVec 5) (s : State), ∃ t, exec (.andImm dr sr1 imm) s = .next t ∧
    (∀ k, k < 16 → (t.reg dr).getLsbD k = ((s.reg sr1).getLsbD k && imm.getLsbD (min k 4))) ∧
    FlagsFrom (t.reg dr) t ∧ SameRegsBut dr s t ∧ t.pc = s.pc ∧ SameOutside s t

/-- 40_operate.md R77: NOT. -/
def Obligations.NotComplementsEveryBit : Prop :=
  (∀ (dr sr : Reg) (ignored : BitVec 6),
    decode (0b1001#4 ++ Reg.field dr ++ Reg.field sr ++ ignored) = .notReg dr sr) ∧
  ∀ (dr sr : Reg) (s : State), ∃ t, exec (.notReg dr sr) s = .next t ∧
    (∀ k, k < 16 → (t.reg dr).getLsbD k = !(s.reg sr).getLsbD k) ∧
    FlagsFrom (t.reg dr) t ∧ SameRegsBut dr s t ∧ t.pc = s.pc ∧ SameOutside s t

/-! ### Data movement -/

/-- 41_data_movement.md R79: LD. -/
def Obligations.LdLoadsThePcRelativeWord : Prop :=
  (∀ (dr : Reg) (off : BitVec 9), decode (0b0010#4 ++ Reg.field dr ++ off) = .ld dr off) ∧
  ∀ (dr : Reg) (off : BitVec 9) (s : State) (a : Nat),
    memIndex s.cfg (pcRelative s.pc off) = some a →
    ∃ t, exec (.ld dr off) s = .next t ∧ t.reg dr = loaded s a ∧ FlagsFrom (loaded s a) t ∧
      SameRegsBut dr s t ∧ t.pc = s.pc ∧ SameButReports s t ∧
      t.reports = s.reports ++ warnings s (pcRelative s.pc off) a

/-- 41_data_movement.md R80: LDI reads the pointer, then the word it points to. -/
def Obligations.LdiLoadsThroughThePointer : Prop :=
  (∀ (dr : Reg) (off : BitVec 9), decode (0b1010#4 ++ Reg.field dr ++ off) = .ldi dr off) ∧
  ∀ (dr : Reg) (off : BitVec 9) (s : State) (a b : Nat),
    memIndex s.cfg (pcRelative s.pc off) = some a → memIndex s.cfg (loaded s a) = some b →
    ∃ t, exec (.ldi dr off) s = .next t ∧ t.reg dr = loaded s b ∧ FlagsFrom (loaded s b) t ∧
      SameRegsBut dr s t ∧ t.pc = s.pc ∧ SameButReports s t ∧
      t.reports =
        s.reports ++ warnings s (pcRelative s.pc off) a ++ warnings s (loaded s a) b

/-- 41_data_movement.md R81: LDR; the address uses the base register as it was before. -/
def Obligations.LdrLoadsTheBaseOffsetWord : Prop :=
  (∀ (dr base : Reg) (off : BitVec 6),
    decode (0b0110#4 ++ Reg.field dr ++ Reg.field base ++ off) = .ldr dr base off) ∧
  ∀ (dr base : Reg) (off : BitVec 6) (s : State) (a : Nat),
    memIndex s.cfg (baseOffset (s.reg base) off) = some a →
    ∃ t, exec (.ldr dr base off) s = .next t ∧ t.reg dr = loaded s a ∧ FlagsFrom (loaded s a) t ∧
      SameRegsBut dr s t ∧ t.pc = s.pc ∧ SameButReports s t ∧
      t.reports = s.reports ++ warnings s (baseOffset (s.reg base) off) a

/-- 41_data_movement.md R82: LEA writes the full 16-bit sum and no flag, and reads no memory. -/
def Obligations.LeaWritesTheFullSumAndNoFlag : Prop :=
  (∀ (dr : Reg) (off : BitVec 9), decode (0b1110#4 ++ Reg.field dr ++ off) = .lea dr off) ∧
  ∀ (dr : Reg) (off : BitVec 9) (s : State), ∃ t, exec (.lea dr off) s = .next t ∧
    t.reg dr = BitVec.ofInt 16 (s.pc.toNat + off.toInt) ∧
    SameRegsBut dr s t ∧ SameFlags s t ∧ t.pc = s.pc ∧ SameOutside s t

/-- 41_data_movement.md R83: ST. The memory is in its canonical form, which the invariant states. -/
def Obligations.StStoresAtThePcRelativeWord : Prop :=
  (∀ (sr : Reg) (off : BitVec 9), decode (0b0011#4 ++ Reg.field sr ++ off) = .st sr off) ∧
  ∀ (sr : Reg) (off : BitVec 9) (s : State) (a : Nat), Memory.wf s.mem = true →
    memIndex s.cfg (pcRelative s.pc off) = some a →
    ∃ t, exec (.st sr off) s = .next t ∧ StoreEffect a (s.reg sr) s t ∧
      SameRegs s t ∧ SameFlags s t ∧ t.pc = s.pc ∧ t.spc = s.spc ∧ SameInput s t ∧
      SameEngine s t ∧ t.reports = s.reports ++ warnings s (pcRelative s.pc off) a

/-- 41_data_movement.md R84: STI reads the pointer before the write. The memory is in its canonical
form, which the invariant states. -/
def Obligations.StiStoresThroughThePointer : Prop :=
  (∀ (sr : Reg) (off : BitVec 9), decode (0b1011#4 ++ Reg.field sr ++ off) = .sti sr off) ∧
  ∀ (sr : Reg) (off : BitVec 9) (s : State) (a b : Nat), Memory.wf s.mem = true →
    memIndex s.cfg (pcRelative s.pc off) = some a → memIndex s.cfg (loaded s a) = some b →
    ∃ t, exec (.sti sr off) s = .next t ∧ StoreEffect b (s.reg sr) s t ∧
      SameRegs s t ∧ SameFlags s t ∧ t.pc = s.pc ∧ t.spc = s.spc ∧ SameInput s t ∧
      SameEngine s t ∧
      t.reports =
        s.reports ++ warnings s (pcRelative s.pc off) a ++ warnings s (loaded s a) b

/-- 41_data_movement.md R85: STR. The memory is in its canonical form, which the invariant states. -/
def Obligations.StrStoresAtTheBaseOffsetWord : Prop :=
  (∀ (sr base : Reg) (off : BitVec 6),
    decode (0b0111#4 ++ Reg.field sr ++ Reg.field base ++ off) = .str sr base off) ∧
  ∀ (sr base : Reg) (off : BitVec 6) (s : State) (a : Nat), Memory.wf s.mem = true →
    memIndex s.cfg (baseOffset (s.reg base) off) = some a →
    ∃ t, exec (.str sr base off) s = .next t ∧ StoreEffect a (s.reg sr) s t ∧
      SameRegs s t ∧ SameFlags s t ∧ t.pc = s.pc ∧ t.spc = s.spc ∧ SameInput s t ∧
      SameEngine s t ∧ t.reports = s.reports ++ warnings s (baseOffset (s.reg base) off) a

/-- 20_memory.md R32, R39 (log 8): where the parameter OOR_POLICY makes an address reach no word, the
access it belongs to, the fetch of a running machine included, refuses the run, at that address; nothing
else about the state matters. -/
def Obligations.AccessesOutOfRangeAreRefusedWhereThePolicySaysSo : Prop :=
  ∀ (r base : Reg) (off : BitVec 9) (off6 : BitVec 6) (s : State),
    (memIndex s.cfg (pcRelative s.pc off) = none →
      exec (.ld r off) s = .refused (.outOfRange (pcRelative s.pc off)) ∧
      exec (.ldi r off) s = .refused (.outOfRange (pcRelative s.pc off)) ∧
      exec (.st r off) s = .refused (.outOfRange (pcRelative s.pc off)) ∧
      exec (.sti r off) s = .refused (.outOfRange (pcRelative s.pc off))) ∧
    (∀ a, memIndex s.cfg (pcRelative s.pc off) = some a → memIndex s.cfg (loaded s a) = none →
      exec (.ldi r off) s = .refused (.outOfRange (loaded s a)) ∧
      exec (.sti r off) s = .refused (.outOfRange (loaded s a))) ∧
    (memIndex s.cfg (baseOffset (s.reg base) off6) = none →
      exec (.ldr r base off6) s = .refused (.outOfRange (baseOffset (s.reg base) off6)) ∧
      exec (.str r base off6) s = .refused (.outOfRange (baseOffset (s.reg base) off6))) ∧
    (memIndex s.cfg (s.reg 0) = none →
      exec .puts s = .refused (.outOfRange (s.reg 0)) ∧
      exec .putsp s = .refused (.outOfRange (s.reg 0))) ∧
    (s.halted = false → s.pc ≠ 0 → memIndex s.cfg s.pc = none →
      step s = .refused (.outOfRange s.pc))

/-! ### Control transfer -/

/-- 42_control.md R87: BR is taken when a requested bit meets a set flag. -/
def Obligations.BrBranchesOnARequestedSetFlag : Prop :=
  (∀ (n z p : Bool) (off : BitVec 9),
    decode (0b0000#4 ++ BitVec.ofBool n ++ BitVec.ofBool z ++ BitVec.ofBool p ++ off) =
      .br n z p off) ∧
  ∀ (n z p : Bool) (off : BitVec 9) (s : State), ∃ t, exec (.br n z p off) s = .next t ∧
    ((n = true ∧ s.n = true) ∨ (z = true ∧ s.z = true) ∨ (p = true ∧ s.p = true) →
      t.pc = BitVec.ofInt 16 (s.pc.toNat + off.toInt)) ∧
    (¬ ((n = true ∧ s.n = true) ∨ (z = true ∧ s.z = true) ∨ (p = true ∧ s.p = true)) →
      t.pc = s.pc) ∧
    SameRegs s t ∧ SameFlags s t ∧ SameOutside s t

/-- 42_control.md R88: JMP through a register other than R7; no flag, no call stack. -/
def Obligations.JmpGoesToTheBaseRegister : Prop :=
  (∀ (ignored3 : BitVec 3) (base : Reg) (ignored6 : BitVec 6), base ≠ 7 →
    decode (0b1100#4 ++ ignored3 ++ Reg.field base ++ ignored6) = .jmp base) ∧
  ∀ (base : Reg) (s : State), base ≠ 7 → ∃ t, exec (.jmp base) s = .next t ∧
    t.pc = s.reg base ∧ SameRegs s t ∧ SameFlags s t ∧ SameOutside s t

/-- 42_control.md R89: RET pops into R7 and goes to the popped value (the spec's decision D13; log 17),
the sentinel and a report on an empty stack. -/
def Obligations.RetGoesToThePoppedValue : Prop :=
  (∀ (ignored3 : BitVec 3) (ignored6 : BitVec 6),
    decode (0b1100#4 ++ ignored3 ++ 0b111#3 ++ ignored6) = .ret) ∧
  ∀ s : State, ∃ t v, exec .ret s = .next t ∧ PopEffect v s t ∧ t.reg 7 = v ∧ t.pc = v ∧
    SameRegsBut 7 s t ∧ SameFlags s t ∧ t.consoleOut = s.consoleOut ∧ SameInput s t ∧
    SameEngine s t

/-- 42_control.md R90: JSR pushes the incremented PC, links it in R7 and jumps PC-relative; on a full
stack it reports, stores nothing and still links and jumps. The memory is in its canonical form, which
the invariant states. -/
def Obligations.JsrPushesLinksAndJumps : Prop :=
  (∀ off : BitVec 11, decode (0b0100#4 ++ 0b1#1 ++ off) = .jsr off) ∧
  ∀ (off : BitVec 11) (s : State), Memory.wf s.mem = true →
    ∃ t, exec (.jsr off) s = .next t ∧ PushEffect s.pc s t ∧ t.reg 7 = s.pc ∧
      t.pc = BitVec.ofInt 16 (s.pc.toNat + off.toInt) ∧
      SameRegsBut 7 s t ∧ SameFlags s t ∧ t.consoleOut = s.consoleOut ∧ SameInput s t ∧
      SameEngine s t

/-- 42_control.md R91: JSRR pushes, links and goes to the base register as it was before R7 is written
(for BaseR = 7 the spec's decision D12; log 17). The memory is in its canonical form, which the
invariant states. -/
def Obligations.JsrrGoesToTheOldBaseRegister : Prop :=
  (∀ (ignored2 : BitVec 2) (base : Reg) (ignored6 : BitVec 6),
    decode (0b0100#4 ++ 0b0#1 ++ ignored2 ++ Reg.field base ++ ignored6) = .jsrr base) ∧
  ∀ (base : Reg) (s : State), Memory.wf s.mem = true →
    ∃ t, exec (.jsrr base) s = .next t ∧ PushEffect s.pc s t ∧ t.reg 7 = s.pc ∧
      t.pc = s.reg base ∧ SameRegsBut 7 s t ∧ SameFlags s t ∧ t.consoleOut = s.consoleOut ∧
      SameInput s t ∧ SameEngine s t

/-- 42_control.md R92: RTI pops into the PC and writes no register, with no privilege check. -/
def Obligations.RtiPopsIntoThePcOnly : Prop :=
  (∀ ignored : BitVec 12, decode (0b1000#4 ++ ignored) = .rti) ∧
  ∀ s : State, ∃ t v, exec .rti s = .next t ∧ PopEffect v s t ∧ t.pc = v ∧ SameRegs s t ∧
    SameFlags s t ∧ t.consoleOut = s.consoleOut ∧ SameInput s t ∧ SameEngine s t

/-- 44_unassigned.md R105: opcode 1101 does nothing. -/
def Obligations.UnassignedOpcodeDoesNothing : Prop :=
  (∀ ignored : BitVec 12, decode (0b1101#4 ++ ignored) = .unassigned) ∧
  ∀ s : State, exec .unassigned s = .next s

/-! ### TRAP -/

/-- 43_trap.md R95, R96 (vector numbers: the spec's decision D3, log 16; R7 not written: D14, log 17):
a vector outside the service set does nothing. -/
def Obligations.TrapOutsideTheServiceSetDoesNothing : Prop :=
  (∀ (ignored : BitVec 4) (vec : BitVec 8), vec ∉ serviceVectors →
    decode (0b1111#4 ++ ignored ++ vec) = .trap vec) ∧
  ∀ (vec : BitVec 8) (s : State), vec ∉ serviceVectors → exec (.trap vec) s = .next s

/-- 43_trap.md R97 (code width and interrupt characters: the spec's decision D16, log 17): GETC puts the
character in R0, ends the run on an interrupt character, and waits while there is none (log 5). -/
def Obligations.GetcReadsOneCharacterIntoR0 : Prop :=
  (∀ ignored : BitVec 4, decode (0b1111#4 ++ ignored ++ 0x20#8) = .getc) ∧
  (∀ (s : State) (c : Byte) (rest : List Byte), s.inputPending = c :: rest →
    c ∉ s.cfg.interruptChars →
    ∃ t, exec .getc s = .next t ∧ (t.reg 0).toNat = c.toNat ∧
      t.inputConsumed = s.inputConsumed ++ [c] ∧ t.inputPending = rest ∧ t.waiting = false ∧
      SameRegsBut 0 s t ∧ SameFlags s t ∧ t.pc = s.pc ∧ SameMemory s t ∧ t.spc = s.spc ∧
      t.consoleOut = s.consoleOut ∧ t.reports = s.reports ∧ SameEngine s t) ∧
  (∀ (s : State) (c : Byte) (rest : List Byte), s.inputPending = c :: rest →
    c ∈ s.cfg.interruptChars → exec .getc s = .fault (.keyboardInterrupt c)) ∧
  ∀ s : State, s.inputPending = [] → exec .getc s = .next { s with waiting := true }

/-- 43_trap.md R98 (the spec's decision D15, log 17): IN behaves as GETC, with no prompt and no echo. -/
def Obligations.InReadsOneCharacterWithoutEcho : Prop :=
  (∀ ignored : BitVec 4, decode (0b1111#4 ++ ignored ++ 0x23#8) = .inChar) ∧
  (∀ (s : State) (c : Byte) (rest : List Byte), s.inputPending = c :: rest →
    c ∉ s.cfg.interruptChars →
    ∃ t, exec .inChar s = .next t ∧ (t.reg 0).toNat = c.toNat ∧
      t.inputConsumed = s.inputConsumed ++ [c] ∧ t.inputPending = rest ∧ t.waiting = false ∧
      SameRegsBut 0 s t ∧ SameFlags s t ∧ t.pc = s.pc ∧ SameMemory s t ∧ t.spc = s.spc ∧
      t.consoleOut = s.consoleOut ∧ t.reports = s.reports ∧ SameEngine s t) ∧
  (∀ (s : State) (c : Byte) (rest : List Byte), s.inputPending = c :: rest →
    c ∈ s.cfg.interruptChars → exec .inChar s = .fault (.keyboardInterrupt c)) ∧
  ∀ s : State, s.inputPending = [] → exec .inChar s = .next { s with waiting := true }

/-- 43_trap.md R99 (the byte tested for CR: the spec's decision D17, log 17): OUT gives the low byte of
R0 to the console, CR as CR LF. -/
def Obligations.OutWritesTheLowByteOfR0 : Prop :=
  (∀ ignored : BitVec 4, decode (0b1111#4 ++ ignored ++ 0x21#8) = .out) ∧
  ∀ s : State, ∃ t, exec .out s = .next t ∧
    t.consoleOut = s.consoleOut ++ crBytes true ((s.reg 0).setWidth 8) ∧
    SameRegs s t ∧ SameFlags s t ∧ t.pc = s.pc ∧ SameMemory s t ∧ t.spc = s.spc ∧
    t.reports = s.reports ∧ SameInput s t ∧ SameEngine s t

/-- 43_trap.md R100 (which byte and what ends the string: the spec's decision D18, log 17): PUTS reads
words from the address in R0 on, wrapping modulo the address space, up to the first that reads zero,
which comes within MEM_WORDS reads, and outputs the low byte of each word before it. -/
def Obligations.PutsOutputsOneByteOfEachWord : Prop :=
  (∀ ignored : BitVec 4, decode (0b1111#4 ++ ignored ++ 0x22#8) = .puts) ∧
  ∀ (s : State) (a : Nat), s.cfg.wf = true → memIndex s.cfg (s.reg 0) = some a →
    ∃ t n, exec .puts s = .next t ∧ n < 32768 ∧
      (∀ k, k < n → loaded s ((a + k) % 32768) ≠ 0) ∧ loaded s ((a + n) % 32768) = 0 ∧
      t.consoleOut = s.consoleOut ++ (List.range n).flatMap (fun k =>
        crBytes s.cfg.crlfAll ((loaded s ((a + k) % 32768)).setWidth 8)) ∧
      t.reports = s.reports ++ (List.range (n + 1)).flatMap (fun k =>
        warnings s (if k = 0 then s.reg 0 else BitVec.ofNat 16 ((a + k) % 32768)) ((a + k) % 32768)) ∧
      SameRegs s t ∧ SameFlags s t ∧ t.pc = s.pc ∧ SameMemory s t ∧ t.spc = s.spc ∧
      SameInput s t ∧ SameEngine s t

/-- 43_trap.md R101 (the zero high byte: the parameter of the spec's decision D19, log 17): PUTSP walks
as PUTS does and outputs the low byte and then the high byte of each word, a zero high byte only where
PUTSP_SKIP_ZERO_HIGH is false. -/
def Obligations.PutspOutputsTwoBytesOfEachWord : Prop :=
  (∀ ignored : BitVec 4, decode (0b1111#4 ++ ignored ++ 0x24#8) = .putsp) ∧
  ∀ (s : State) (a : Nat), s.cfg.wf = true → memIndex s.cfg (s.reg 0) = some a →
    ∃ t n, exec .putsp s = .next t ∧ n < 32768 ∧
      (∀ k, k < n → loaded s ((a + k) % 32768) ≠ 0) ∧ loaded s ((a + n) % 32768) = 0 ∧
      t.consoleOut = s.consoleOut ++ (List.range n).flatMap (fun k =>
        crBytes s.cfg.crlfAll ((loaded s ((a + k) % 32768)).setWidth 8) ++
        if slice (loaded s ((a + k) % 32768)) 15 8 = 0 ∧ s.cfg.putspSkipZeroHigh = true then []
        else crBytes s.cfg.crlfAll (BitVec.ofNat 8 (slice (loaded s ((a + k) % 32768)) 15 8))) ∧
      t.reports = s.reports ++ (List.range (n + 1)).flatMap (fun k =>
        warnings s (if k = 0 then s.reg 0 else BitVec.ofNat 16 ((a + k) % 32768)) ((a + k) % 32768)) ∧
      SameRegs s t ∧ SameFlags s t ∧ t.pc = s.pc ∧ SameMemory s t ∧ t.spc = s.spc ∧
      SameInput s t ∧ SameEngine s t

/-- 43_trap.md R102 (no message: the spec's decision D33, log 17): HALT sets the next PC to 0x0000. -/
def Obligations.HaltSetsThePcToZero : Prop :=
  (∀ ignored : BitVec 4, decode (0b1111#4 ++ ignored ++ 0x25#8) = .halt) ∧
  ∀ s : State, ∃ t, exec .halt s = .next t ∧ t.pc = 0 ∧ SameRegs s t ∧ SameFlags s t ∧
    SameOutside s t

/-! ### Reset, the invariant and the step -/

/-- 10_state.md R29, 70_reset_and_hazards.md R121 (the spec's decisions D8, D10; log 18): the state
right after reset. -/
def Obligations.ResetZeroesEverythingAndEmptiesTheStack : Prop :=
  (∀ r : Reg, State.reset.reg r = 0) ∧ State.reset.pc = 0 ∧
  State.reset.n = false ∧ State.reset.z = false ∧ State.reset.p = false ∧ State.reset.ir = 0 ∧
  State.reset.halted = false ∧ State.reset.counter = 0 ∧
  State.reset.spc = State.reset.cfg.stackTop ∧ (∀ a, State.reset.word a = 0) ∧
  State.reset.consoleOut = [] ∧ State.reset.inputConsumed = []

/-- The invariant holds right after reset. -/
def Obligations.ResetMeetsTheInvariant : Prop := MachineInv State.reset

/-- Every step keeps the invariant: the canonical memory, the cursor in [STACK_LIMIT, STACK_TOP], the
flags mutually exclusive, halted only at PC = 0x0000, waiting only where a cycle is in progress. -/
def Obligations.EveryStepKeepsTheInvariant : Prop :=
  ∀ s t : State, MachineInv s → step s = .next t → MachineInv t

/-- 30_encoding.md R64, R65, R67, R68, 10_state.md R27 (the wait: log 5): a step of a machine that is
neither halted nor at PC = 0x0000 fetches the word at the PC and runs what it decodes to, with IR the
word and the PC incremented; a completed handler commits, counts and halts at PC = 0x0000; a wait keeps
R0 to R7, PC, flags and IR; a stop stays a stop. -/
def Obligations.StepRunsTheDecodedInstruction : Prop :=
  ∀ (s : State) (a : Nat) (w : Word), s.halted = false → s.pc ≠ 0 →
    memIndex s.cfg s.pc = some a → loaded s a = w →
    ∃ s1 : State,
      s1 = { s with ir := w, pc := s.pc + 1, waiting := false,
                    reports := if s.waiting then s.reports else s.reports ++ warnings s s.pc a } ∧
      (∀ t, exec (decode w) s1 = .next t → t.waiting = false →
        step s = .next { t with counter := t.counter + 1,
                                halted := t.halted || decide (t.pc = 0) }) ∧
      (∀ t, exec (decode w) s1 = .next t → t.waiting = true →
        step s = .next { t with regs := s.regs, pc := s.pc, n := s.n, z := s.z, p := s.p,
                                ir := s.ir }) ∧
      (∀ f, exec (decode w) s1 = .fault f → step s = .fault f) ∧
      (∀ f, exec (decode w) s1 = .refused f → step s = .refused f)

/-- 10_state.md R23, 30_encoding.md R68 (the spec's decision D24; one step as RunFor(1): log 4): a
halted machine stays as it is; PC = 0x0000 halts without running anything; after a cycle the machine is
halted exactly when its PC is 0x0000. -/
def Obligations.HaltIsDetectedAtEveryBoundary : Prop :=
  (∀ s : State, s.halted = true → step s = .next s) ∧
  (∀ s : State, s.halted = false → s.pc = 0 → step s = .next { s with halted := true }) ∧
  ∀ s t : State, s.halted = false → s.pc ≠ 0 → step s = .next t → t.halted = decide (t.pc = 0)

/-- 10_state.md R22, R24, 30_encoding.md R67 (unbounded: the spec's decision D25): the instruction
counter grows by exactly 1 with each committed cycle, whose word IR then holds, and by nothing else. -/
def Obligations.CounterCountsCommittedCycles : Prop :=
  ∀ s t : State, step s = .next t →
    (t.counter = s.counter + 1 ∧ t.waiting = false ∧ Fetches s t.ir) ∨
    (t.counter = s.counter ∧ t.ir = s.ir ∧ (s.halted = true ∨ s.pc = 0 ∨ t.waiting = true))

/-! ### Whole-machine rules -/

/-- 10_state.md R20: setcc is called by exactly ADD, AND, NOT, LD, LDI and LDR, on the value written to
DR; every other instruction leaves the flags; only BR reads them. -/
def Obligations.OnlyListedInstructionsTouchFlags : Prop :=
  (∀ (i : Instr) (s t : State), exec i s = .next t →
    (∀ dr, flagDest i = some dr → FlagsFrom (t.reg dr) t) ∧ (flagDest i = none → SameFlags s t)) ∧
  ∀ (i : Instr) (s : State) (n z p : Bool), readsFlags i = false →
    eraseFlags (exec i { s with n := n, z := z, p := p }) = eraseFlags (exec i s)

/-- 10_state.md R15: no instruction writes a general register other than the one the rule lists for it;
the other registers keep their values. -/
def Obligations.OnlyListedInstructionsWriteRegisters : Prop :=
  ∀ (i : Instr) (s t : State), i.wf = true → exec i s = .next t →
    ∀ r : Reg, destReg i ≠ some r → t.reg r = s.reg r

/-- 20_memory.md R30, 10_state.md R25: memory is changed by the three stores and the two calls only, the
call-stack cursor by calls and returns only, and the PC by control transfers and HALT only. -/
def Obligations.OnlyListedInstructionsChangeMemoryCursorAndPc : Prop :=
  ∀ (i : Instr) (s t : State), i.wf = true → exec i s = .next t →
    (isStore i = false → isCall i = false → SameMemory s t) ∧
    (isCall i = false → isReturn i = false → t.spc = s.spc) ∧
    (isCall i = false → isReturn i = false → readsFlags i = false → i ≠ .halt →
      (∀ base, i ≠ .jmp base) → t.pc = s.pc)

/-- 00_scope.md R11, R12: a step consumes input characters from the front of the pending ones, once and in
order, and never gives one back; output and reports are only
ever added to, and the parameters never change. -/
def Obligations.ConsoleAndReportsOnlyGrowInOrder : Prop :=
  ∀ s t : State, step s = .next t →
    t.inputConsumed ++ t.inputPending = s.inputConsumed ++ s.inputPending ∧
    s.inputConsumed <+: t.inputConsumed ∧
    s.consoleOut <+: t.consoleOut ∧ s.reports <+: t.reports ∧ t.cfg = s.cfg ∧
    t.loadFloor = s.loadFloor

/-- 20_memory.md R39, 60_exceptions.md R108, R109 (under the reference OOR_POLICY, the spec's decision
D5): every step answers a next state, but for the one fatal outcome, an interrupt character given to
GETC or IN. -/
def Obligations.OnlyAnInterruptCharacterStopsARun : Prop :=
  ∀ s : State, s.cfg.oorPolicy = .aliasLow →
    (∃ t, step s = .next t) ∨
    ∃ c i, step s = .fault (.keyboardInterrupt c) ∧ c ∈ s.cfg.interruptChars ∧
      s.inputPending.head? = some c ∧ Runs s i ∧ isCharInput i = true

/-- 43_trap.md R103 (the spec's decision D28; log 5): with no character at hand a GETC or IN waits,
committing nothing, for as long as none comes; when characters come, the cycle goes on as if they had
been there from its start. -/
def Obligations.CharacterInputWaitsWithoutCommitting : Prop :=
  (∀ (s : State) (i : Instr), Runs s i → isCharInput i = true → s.inputPending = [] →
    ∃ t, step s = .next t ∧ t.waiting = true ∧ SameRegs s t ∧ t.pc = s.pc ∧ SameFlags s t ∧
      SameEngine s t ∧ SameMemory s t ∧ t.spc = s.spc ∧ t.consoleOut = s.consoleOut ∧
      t.inputConsumed = s.inputConsumed ∧ t.inputPending = [] ∧ step t = .next t) ∧
  ∀ (s t : State) (c : Byte) (cs : List Byte), s.waiting = false → step s = .next t →
    t.waiting = true → step (t.supplyInput (c :: cs)) = step (s.supplyInput (c :: cs))

/-- 43_trap.md R104 (the spec's decision D16; log 7): an interrupt character given to GETC or IN ends
the run with KeyboardInterrupt, and there is no next state, so nothing commits. -/
def Obligations.InterruptCharacterEndsTheRun : Prop :=
  ∀ (s : State) (i : Instr) (c : Byte) (rest : List Byte), Runs s i → isCharInput i = true →
    s.inputPending = c :: rest → c ∈ s.cfg.interruptChars →
    step s = .fault (.keyboardInterrupt c)

/-! ### Memory and the call stack -/

/-- 20_memory.md R52: a read returns what was last written to the same index and writes leave every
other index alone; the canonical form is kept, and in it equal contents are equal data (log 1). -/
def Obligations.MemoryReadsReturnTheLastWrite : Prop :=
  (∀ (m : Memory) (a b : Nat) (v : Word), Memory.wf m = true →
    Memory.read (Memory.write m a v) b = if b = a then v else Memory.read m b) ∧
  (∀ (m : Memory) (a : Nat) (v : Word), Memory.wf m = true → a < 32768 →
    Memory.wf (Memory.write m a v) = true) ∧
  ∀ m m' : Memory, Memory.wf m = true → Memory.wf m' = true →
    (∀ a, Memory.read m a = Memory.read m' a) → m = m'

/-- 20_memory.md R43, R44 (the sentinel: the parameter of the spec's decision D9): push and pop, each
with what it leaves unchanged. The memory is in its canonical form, which the invariant states. -/
def Obligations.PushAndPopFollowTheirRules : Prop :=
  (∀ (s : State) (v : Word), Memory.wf s.mem = true →
    PushEffect v s (s.stackPush v) ∧ SameRegs s (s.stackPush v) ∧ SameFlags s (s.stackPush v) ∧
    (s.stackPush v).pc = s.pc ∧ (s.stackPush v).consoleOut = s.consoleOut ∧
    SameInput s (s.stackPush v) ∧ SameEngine s (s.stackPush v)) ∧
  ∀ s : State, PopEffect s.stackPop.1 s s.stackPop.2 ∧ SameRegs s s.stackPop.2 ∧
    SameFlags s s.stackPop.2 ∧ s.stackPop.2.pc = s.pc ∧ s.stackPop.2.consoleOut = s.consoleOut ∧
    SameInput s s.stackPop.2 ∧ SameEngine s s.stackPop.2

/-- 20_memory.md R42, R43: an empty stack takes STACK_CAPACITY values, kept in order from the top of
its range downwards, and the next push fails, is reported and stores nothing. -/
def Obligations.StackHoldsItsCapacityAndNoMore : Prop :=
  ∀ (s : State) (vs : List Word), MachineInv s → s.spc = s.cfg.stackTop →
    vs.length ≤ s.cfg.stackCapacity →
    (vs.foldl State.stackPush s).spc + vs.length = s.cfg.stackTop ∧
    (vs.foldl State.stackPush s).reports = s.reports ∧
    (∀ k (h : k < vs.length), (vs.foldl State.stackPush s).word (s.cfg.stackTop - 1 - k) = vs[k]) ∧
    (vs.length = s.cfg.stackCapacity → ∀ v,
      (vs.foldl State.stackPush s).stackPush v =
        (vs.foldl State.stackPush s).report (.stackOverflow v))

/-- 42_control.md R93: in a balanced run, at any depth of calls made while the stack is not full, the
return that matches a call goes to the instruction after it and leaves the cursor where it was. -/
def Obligations.ReturnsGoToTheInstructionAfterTheirCall : Prop :=
  ∀ (s s1 s2 s3 : State) (call back : Instr), MachineInv s → Runs s call → isCall call = true →
    s.cfg.stackLimit < s.spc → step s = .next s1 → Balanced s1 s2 → Runs s2 back →
    isReturn back = true → step s2 = .next s3 →
    s3.pc = s.pc + 1 ∧ s3.spc = s.spc

/-- 20_memory.md R56: a store, by ST, STI or STR, into the word of the next instruction is what the next
cycle fetches. The word is neither special word, and the next PC is not 0x0000. -/
def Obligations.StoresAreSeenByTheNextFetch : Prop :=
  ∀ (s : State) (sr : Reg) (b : Nat), MachineInv s → memIndex s.cfg (s.pc + 1) = some b →
    b ≠ s.cfg.ddrAddr → b ≠ s.cfg.dsrAddr → s.pc + 1 ≠ 0 →
    (∀ off : BitVec 9, Runs s (.st sr off) →
      memIndex s.cfg (pcRelative (s.pc + 1) off) = some b →
      ∃ t, step s = .next t ∧ t.pc = s.pc + 1 ∧ Fetches t (s.reg sr)) ∧
    (∀ (off : BitVec 9) (a : Nat), Runs s (.sti sr off) →
      memIndex s.cfg (pcRelative (s.pc + 1) off) = some a → memIndex s.cfg (loaded s a) = some b →
      ∃ t, step s = .next t ∧ t.pc = s.pc + 1 ∧ Fetches t (s.reg sr)) ∧
    ∀ (base : Reg) (off : BitVec 6), Runs s (.str sr base off) →
      memIndex s.cfg (baseOffset (s.reg base) off) = some b →
      ∃ t, step s = .next t ∧ t.pc = s.pc + 1 ∧ Fetches t (s.reg sr)

/-! ### The host interface -/

/-- 70_reset_and_hazards.md R122 (size check and write path: the spec's decision D23; log 15), before the
first cycle (R126; a load later is refused, log 24): the loader's fatal outcomes, and the words a load
writes, directly and without warnings. The memory is in its canonical form, which the invariant states. -/
def Obligations.LoadStoresTheImageOrStops : Prop :=
  (∀ (s : State) (image : Option (List Word)), s.beforeFirstCycle = false →
    load image s = .refused .hostOutOfTurn) ∧
  (∀ s : State, s.beforeFirstCycle = true →
    load none s = .fault .imageUnreadable ∧ load (some []) s = .fault .imageEmpty) ∧
  (∀ (base : Word) (ws : List Word) (s : State), s.beforeFirstCycle = true →
    32768 < base.toNat + ws.length → load (some (base :: ws)) s = .fault .imageTooLarge) ∧
  ∀ (base : Word) (ws : List Word) (s : State), s.beforeFirstCycle = true →
    Memory.wf s.mem = true → base.toNat + ws.length ≤ 32768 →
    ∃ t, load (some (base :: ws)) s = .next t ∧
      (∀ k (h : k < ws.length), t.word (base.toNat + k) = ws[k]) ∧
      (∀ a, a < base.toNat ∨ base.toNat + ws.length ≤ a → t.word a = s.word a) ∧
      Memory.wf t.mem = true ∧
      t.loadFloor = some (min base.toNat (s.loadFloor.getD base.toNat)) ∧
      SameRegs s t ∧ SameFlags s t ∧ t.pc = s.pc ∧ t.spc = s.spc ∧ t.consoleOut = s.consoleOut ∧
      t.reports = s.reports ∧ SameInput s t ∧ t.cfg = s.cfg ∧ t.ir = s.ir ∧ t.halted = s.halted ∧
      t.counter = s.counter

/-- 70_reset_and_hazards.md R125, R127, 43_trap.md R103 (one step as RunFor(1), log 4; the bound that
follows RunToHalt, log 22): RunFor(n + 1) comes to what n + 1 steps come to, RunFor(0) to the halt
detection alone; a run that waits goes on, once a character comes, with the cycles it has left;
RunToHalt comes back with one standing, whatever longer bound follows it, and at a boundary only
halted. -/
def Obligations.SteppingIsTheRunDriver : Prop :=
  (∀ (n : Nat) (s : State), s.waiting = false → AgreesWithSteps (n + 1) s (runFor (n + 1) s)) ∧
  (∀ s : State, s.waiting = false → runFor 0 s = .ready s.boundary) ∧
  (∀ (n bound : Nat) (s : State) (c : Byte), s.halted = false → s.pc ≠ 0 →
    ∃ e, (Session.blocked s (some (n + 1))).consoleInput bound c = some e ∧
      AgreesWithSteps (n + 1) (s.supplyInput [c]) e) ∧
  (∀ (n m : Nat) (s : State) (e : Session), n ≤ m → runToHalt n s = some e →
    runToHalt m s = some e) ∧
  (∀ (s : State) (e e' : Session), RunsToHalt s e → RunsToHalt s e' → e = e') ∧
  ∀ (s t : State), RunsToHalt s (.ready t) → t.halted = true

/-- 60_exceptions.md R107, 10_state.md R22, R24, 20_memory.md R38 (log 9, log 10): nothing reads the
reports, the load floor, the instruction counter, IR, the console output or the record of consumed
input: two states that differ in these alone step alike. -/
def Obligations.WriteOnlyStateIsNeverRead : Prop :=
  ∀ (s : State) (reports : List Report) (floor : Option Nat) (counter : Nat) (ir : Word)
    (out consumed : List Byte),
    eraseWriteOnly (step { s with reports := reports, loadFloor := floor, counter := counter, ir := ir,
                                  consoleOut := out, inputConsumed := consumed }) =
      eraseWriteOnly (step s)

/-- 70_reset_and_hazards.md R122, R123 (the model's own placing of a word, log 14): the next step of a
state with a word placed fetches that word. -/
def Obligations.ThePlacedWordIsFetchedNext : Prop :=
  ∀ (s : State) (w : Word), Memory.wf s.mem = true → Fetches (s.withFetchWord 16 w.toNat) w

/-- 00_scope.md R4, 70_reset_and_hazards.md R126, 43_trap.md R103 (the form of a session and the refusal
are the model's, log 24; what a dump shows past M is log 23): the host acts only between cycles, but for
the character a wait needs; loading and entry come before the first cycle; the dumps, at a boundary,
change nothing; terminate ends the session, after which nothing is answered. -/
def Obligations.TheHostActsOnlyInItsTurn : Prop :=
  (∀ (bound : Nat) (s : State) (left : Option Nat) (request : HostRequest),
    (∀ c, request ≠ .consoleInput c) →
    perform bound request (.blocked s left) = some (.refused .hostOutOfTurn, .nothing)) ∧
  (∀ (bound : Nat) (s : State) (c : Byte),
    perform bound (.consoleInput c) (.ready s) = some (.refused .hostOutOfTurn, .nothing)) ∧
  (∀ (s : State) (image : Option (List Word)) (entry : Word), s.waiting = true ∨ s.counter ≠ 0 →
    load image s = .refused .hostOutOfTurn ∧ setEntry entry s = .refused .hostOutOfTurn) ∧
  (∀ (s : State) (n : Nat), s.waiting = true → runFor n s = .refused .hostOutOfTurn) ∧
  (∀ (s : State) (entry : Word), s.beforeFirstCycle = true →
    setEntry entry s = .next { s with pc := entry }) ∧
  (∀ (bound : Nat) (s : State) (lo len : Nat), ∃ ws : List Word,
    perform bound (.dumpMemory lo len) (.ready s) = some (.ready s, .words ws) ∧ ws.length = len ∧
    ∀ k (h : k < ws.length), lo + k < 32768 → ws[k] = s.word (lo + k)) ∧
  (∀ (bound : Nat) (s : State), ∃ d : RegisterDump,
    perform bound .dumpRegisters (.ready s) = some (.ready s, .registers d) ∧
    d.regs = s.regs ∧ d.pc = s.pc ∧ d.n = s.n ∧ d.z = s.z ∧ d.p = s.p ∧ d.ir = s.ir ∧
    d.counter = s.counter) ∧
  (∀ (bound : Nat) (s : State), perform bound .terminate (.ready s) = some (.closed, .nothing)) ∧
  ∀ (bound : Nat) (request : HostRequest) (reason : Fault) (last : State),
    perform bound request .closed = some (.refused .hostOutOfTurn, .nothing) ∧
    perform bound request (.terminated reason last) = some (.refused .hostOutOfTurn, .nothing)

/-- 70_reset_and_hazards.md R126, R127, 10_state.md R27 (the form of a session is the model's, log 24):
a session starts from reset in, and every request of the host keeps, the invariant of sessions: the
machine's invariant, no wait at a boundary, and in a wait no character at hand. -/
def Obligations.HostRequestsKeepTheSessionInvariant : Prop :=
  SessionInv (.ready State.reset) ∧
  ∀ (bound : Nat) (request : HostRequest) (session after : Session) (reply : HostReply),
    SessionInv session → perform bound request session = some (after, reply) → SessionInv after
end

