-- ==== Sys2Proof/Laws/Memory.lean ====
section
/-! SUPPORT. Memory as data: reading after writing, and that writing keeps the canonical form. -/

namespace Sys2Proof.Machine

theorem Memory.wfFrom_cons {lo k : Nat} {w : Word} {rest : Memory} :
    Memory.wfFrom lo ((k, w) :: rest) = true ↔
      (lo ≤ k ∧ k < memWords ∧ w ≠ 0x0000) ∧ Memory.wfFrom (k + 1) rest = true := by
  simp only [Memory.wfFrom, Bool.and_eq_true, decide_eq_true_eq]

theorem Memory.wfFrom_mono {lo lo' : Nat} {m : Memory} (le : lo' ≤ lo)
    (h : Memory.wfFrom lo m = true) : Memory.wfFrom lo' m = true := by
  cases m with
  | nil => rfl
  | cons c rest =>
    obtain ⟨k, w⟩ := c
    rw [Memory.wfFrom_cons] at h ⊢
    exact ⟨⟨le.trans h.1.1, h.1.2⟩, h.2⟩

/-- In a canonical memory nothing is listed below the first bound. -/
theorem Memory.read_below {lo a : Nat} {m : Memory} (h : Memory.wfFrom lo m = true) (lt : a < lo) :
    Memory.read m a = 0x0000 := by
  induction m generalizing lo with
  | nil => rfl
  | cons c rest ih =>
    obtain ⟨k, w⟩ := c
    rw [Memory.wfFrom_cons] at h
    rw [Memory.read, if_neg (by omega)]
    exact ih h.2 (by omega)

/-- A write leaves every other index alone, whatever the memory. -/
theorem Memory.read_write_ne (m : Memory) {a b : Nat} (v : Word) (ne : b ≠ a) :
    Memory.read (Memory.write m a v) b = Memory.read m b := by
  induction m with
  | nil => simp only [Memory.write]; split <;> simp [Memory.read, ne.symm]
  | cons c rest ih =>
    obtain ⟨k, w⟩ := c
    simp only [Memory.write]
    split
    · split <;> simp [Memory.read, ne.symm]
    · split
      · subst_vars; split <;> simp [Memory.read, ne.symm]
      · simp [Memory.read, ih]

/-- A read of the index just written gives the value written. -/
theorem Memory.read_write_same {lo : Nat} {m : Memory} (h : Memory.wfFrom lo m = true) (a : Nat)
    (v : Word) : Memory.read (Memory.write m a v) a = v := by
  induction m generalizing lo with
  | nil => simp only [Memory.write]; split <;> simp_all [Memory.read]
  | cons c rest ih =>
    obtain ⟨k, w⟩ := c
    have hk := Memory.wfFrom_cons.1 h
    simp only [Memory.write]
    split
    · split
      · subst_vars
        exact Memory.read_below (lo := k) (Memory.wfFrom_cons.2 ⟨⟨le_rfl, hk.1.2⟩, hk.2⟩) ‹a < k›
      · simp [Memory.read]
    · split
      · subst_vars; split
        · subst_vars; exact Memory.read_below hk.2 (by omega)
        · simp [Memory.read]
      · rw [Memory.read, if_neg (by omega)]; exact ih hk.2

/-- A write keeps the canonical form. -/
theorem Memory.wfFrom_write {lo : Nat} {m : Memory} (h : Memory.wfFrom lo m = true) {a : Nat}
    (v : Word) (ge : lo ≤ a) (lt : a < memWords) : Memory.wfFrom lo (Memory.write m a v) = true := by
  induction m generalizing lo with
  | nil =>
    simp only [Memory.write]
    split
    · rfl
    · exact Memory.wfFrom_cons.2 ⟨⟨ge, lt, ‹_›⟩, rfl⟩
  | cons c rest ih =>
    obtain ⟨k, w⟩ := c
    have hk := Memory.wfFrom_cons.1 h
    simp only [Memory.write]
    split
    · split
      · exact h
      · exact Memory.wfFrom_cons.2 ⟨⟨ge, lt, ‹_›⟩, Memory.wfFrom_cons.2 ⟨⟨by omega, hk.1.2⟩, hk.2⟩⟩
    · split
      · subst_vars; split
        · exact Memory.wfFrom_mono (by omega) hk.2
        · exact Memory.wfFrom_cons.2 ⟨⟨ge, lt, ‹_›⟩, hk.2⟩
      · exact Memory.wfFrom_cons.2 ⟨hk.1, ih hk.2 (by omega)⟩

theorem Memory.wf_write {m : Memory} (h : Memory.wf m = true) {a : Nat} (v : Word)
    (lt : a < memWords) : Memory.wf (Memory.write m a v) = true :=
  Memory.wfFrom_write h v (Nat.zero_le a) lt

/-- Read after write, in one equation. -/
theorem Memory.read_write {m : Memory} (h : Memory.wf m = true) (a b : Nat) (v : Word) :
    Memory.read (Memory.write m a v) b = if b = a then v else Memory.read m b := by
  split
  · subst_vars; exact Memory.read_write_same h _ v
  · exact Memory.read_write_ne m v ‹_›

end Sys2Proof.Machine
end

