-- ==== Sys2Proof/Laws/State.lean ====
section
/-! SUPPORT. One lemma per field of the state per named update, each true by rfl, so that no proof
unfolds a record update. -/

namespace Sys2Proof.Machine

/-! ### `setReg` -/

@[simp] theorem State.setReg_cfg (s : State) (r : Reg) (v : Word) :
    (s.setReg r v).cfg = s.cfg := rfl
@[simp] theorem State.setReg_regs (s : State) (r : Reg) (v : Word) :
    (s.setReg r v).regs = s.regs.set r.val v := rfl
@[simp] theorem State.setReg_pc (s : State) (r : Reg) (v : Word) :
    (s.setReg r v).pc = s.pc := rfl
@[simp] theorem State.setReg_n (s : State) (r : Reg) (v : Word) :
    (s.setReg r v).n = s.n := rfl
@[simp] theorem State.setReg_z (s : State) (r : Reg) (v : Word) :
    (s.setReg r v).z = s.z := rfl
@[simp] theorem State.setReg_p (s : State) (r : Reg) (v : Word) :
    (s.setReg r v).p = s.p := rfl
@[simp] theorem State.setReg_ir (s : State) (r : Reg) (v : Word) :
    (s.setReg r v).ir = s.ir := rfl
@[simp] theorem State.setReg_halted (s : State) (r : Reg) (v : Word) :
    (s.setReg r v).halted = s.halted := rfl
@[simp] theorem State.setReg_counter (s : State) (r : Reg) (v : Word) :
    (s.setReg r v).counter = s.counter := rfl
@[simp] theorem State.setReg_spc (s : State) (r : Reg) (v : Word) :
    (s.setReg r v).spc = s.spc := rfl
@[simp] theorem State.setReg_mem (s : State) (r : Reg) (v : Word) :
    (s.setReg r v).mem = s.mem := rfl
@[simp] theorem State.setReg_consoleOut (s : State) (r : Reg) (v : Word) :
    (s.setReg r v).consoleOut = s.consoleOut := rfl
@[simp] theorem State.setReg_inputConsumed (s : State) (r : Reg) (v : Word) :
    (s.setReg r v).inputConsumed = s.inputConsumed := rfl
@[simp] theorem State.setReg_inputPending (s : State) (r : Reg) (v : Word) :
    (s.setReg r v).inputPending = s.inputPending := rfl
@[simp] theorem State.setReg_waiting (s : State) (r : Reg) (v : Word) :
    (s.setReg r v).waiting = s.waiting := rfl
@[simp] theorem State.setReg_reports (s : State) (r : Reg) (v : Word) :
    (s.setReg r v).reports = s.reports := rfl
@[simp] theorem State.setReg_loadFloor (s : State) (r : Reg) (v : Word) :
    (s.setReg r v).loadFloor = s.loadFloor := rfl

/-! ### `setPc` -/

@[simp] theorem State.setPc_cfg (s : State) (v : Word) :
    (s.setPc v).cfg = s.cfg := rfl
@[simp] theorem State.setPc_regs (s : State) (v : Word) :
    (s.setPc v).regs = s.regs := rfl
@[simp] theorem State.setPc_pc (s : State) (v : Word) :
    (s.setPc v).pc = v := rfl
@[simp] theorem State.setPc_n (s : State) (v : Word) :
    (s.setPc v).n = s.n := rfl
@[simp] theorem State.setPc_z (s : State) (v : Word) :
    (s.setPc v).z = s.z := rfl
@[simp] theorem State.setPc_p (s : State) (v : Word) :
    (s.setPc v).p = s.p := rfl
@[simp] theorem State.setPc_ir (s : State) (v : Word) :
    (s.setPc v).ir = s.ir := rfl
@[simp] theorem State.setPc_halted (s : State) (v : Word) :
    (s.setPc v).halted = s.halted := rfl
@[simp] theorem State.setPc_counter (s : State) (v : Word) :
    (s.setPc v).counter = s.counter := rfl
@[simp] theorem State.setPc_spc (s : State) (v : Word) :
    (s.setPc v).spc = s.spc := rfl
@[simp] theorem State.setPc_mem (s : State) (v : Word) :
    (s.setPc v).mem = s.mem := rfl
@[simp] theorem State.setPc_consoleOut (s : State) (v : Word) :
    (s.setPc v).consoleOut = s.consoleOut := rfl
@[simp] theorem State.setPc_inputConsumed (s : State) (v : Word) :
    (s.setPc v).inputConsumed = s.inputConsumed := rfl
@[simp] theorem State.setPc_inputPending (s : State) (v : Word) :
    (s.setPc v).inputPending = s.inputPending := rfl
@[simp] theorem State.setPc_waiting (s : State) (v : Word) :
    (s.setPc v).waiting = s.waiting := rfl
@[simp] theorem State.setPc_reports (s : State) (v : Word) :
    (s.setPc v).reports = s.reports := rfl
@[simp] theorem State.setPc_loadFloor (s : State) (v : Word) :
    (s.setPc v).loadFloor = s.loadFloor := rfl

/-! ### `setWord` -/

@[simp] theorem State.setWord_cfg (s : State) (a : Nat) (v : Word) :
    (s.setWord a v).cfg = s.cfg := rfl
@[simp] theorem State.setWord_regs (s : State) (a : Nat) (v : Word) :
    (s.setWord a v).regs = s.regs := rfl
@[simp] theorem State.setWord_pc (s : State) (a : Nat) (v : Word) :
    (s.setWord a v).pc = s.pc := rfl
@[simp] theorem State.setWord_n (s : State) (a : Nat) (v : Word) :
    (s.setWord a v).n = s.n := rfl
@[simp] theorem State.setWord_z (s : State) (a : Nat) (v : Word) :
    (s.setWord a v).z = s.z := rfl
@[simp] theorem State.setWord_p (s : State) (a : Nat) (v : Word) :
    (s.setWord a v).p = s.p := rfl
@[simp] theorem State.setWord_ir (s : State) (a : Nat) (v : Word) :
    (s.setWord a v).ir = s.ir := rfl
@[simp] theorem State.setWord_halted (s : State) (a : Nat) (v : Word) :
    (s.setWord a v).halted = s.halted := rfl
@[simp] theorem State.setWord_counter (s : State) (a : Nat) (v : Word) :
    (s.setWord a v).counter = s.counter := rfl
@[simp] theorem State.setWord_spc (s : State) (a : Nat) (v : Word) :
    (s.setWord a v).spc = s.spc := rfl
@[simp] theorem State.setWord_mem (s : State) (a : Nat) (v : Word) :
    (s.setWord a v).mem = Memory.write s.mem a v := rfl
@[simp] theorem State.setWord_consoleOut (s : State) (a : Nat) (v : Word) :
    (s.setWord a v).consoleOut = s.consoleOut := rfl
@[simp] theorem State.setWord_inputConsumed (s : State) (a : Nat) (v : Word) :
    (s.setWord a v).inputConsumed = s.inputConsumed := rfl
@[simp] theorem State.setWord_inputPending (s : State) (a : Nat) (v : Word) :
    (s.setWord a v).inputPending = s.inputPending := rfl
@[simp] theorem State.setWord_waiting (s : State) (a : Nat) (v : Word) :
    (s.setWord a v).waiting = s.waiting := rfl
@[simp] theorem State.setWord_reports (s : State) (a : Nat) (v : Word) :
    (s.setWord a v).reports = s.reports := rfl
@[simp] theorem State.setWord_loadFloor (s : State) (a : Nat) (v : Word) :
    (s.setWord a v).loadFloor = s.loadFloor := rfl

/-! ### `report` -/

@[simp] theorem State.report_cfg (s : State) (r : Report) :
    (s.report r).cfg = s.cfg := rfl
@[simp] theorem State.report_regs (s : State) (r : Report) :
    (s.report r).regs = s.regs := rfl
@[simp] theorem State.report_pc (s : State) (r : Report) :
    (s.report r).pc = s.pc := rfl
@[simp] theorem State.report_n (s : State) (r : Report) :
    (s.report r).n = s.n := rfl
@[simp] theorem State.report_z (s : State) (r : Report) :
    (s.report r).z = s.z := rfl
@[simp] theorem State.report_p (s : State) (r : Report) :
    (s.report r).p = s.p := rfl
@[simp] theorem State.report_ir (s : State) (r : Report) :
    (s.report r).ir = s.ir := rfl
@[simp] theorem State.report_halted (s : State) (r : Report) :
    (s.report r).halted = s.halted := rfl
@[simp] theorem State.report_counter (s : State) (r : Report) :
    (s.report r).counter = s.counter := rfl
@[simp] theorem State.report_spc (s : State) (r : Report) :
    (s.report r).spc = s.spc := rfl
@[simp] theorem State.report_mem (s : State) (r : Report) :
    (s.report r).mem = s.mem := rfl
@[simp] theorem State.report_consoleOut (s : State) (r : Report) :
    (s.report r).consoleOut = s.consoleOut := rfl
@[simp] theorem State.report_inputConsumed (s : State) (r : Report) :
    (s.report r).inputConsumed = s.inputConsumed := rfl
@[simp] theorem State.report_inputPending (s : State) (r : Report) :
    (s.report r).inputPending = s.inputPending := rfl
@[simp] theorem State.report_waiting (s : State) (r : Report) :
    (s.report r).waiting = s.waiting := rfl
@[simp] theorem State.report_reports (s : State) (r : Report) :
    (s.report r).reports = s.reports ++ [r] := rfl
@[simp] theorem State.report_loadFloor (s : State) (r : Report) :
    (s.report r).loadFloor = s.loadFloor := rfl

/-! ### `consolePut` -/

@[simp] theorem State.consolePut_cfg (s : State) (b : Byte) :
    (s.consolePut b).cfg = s.cfg := rfl
@[simp] theorem State.consolePut_regs (s : State) (b : Byte) :
    (s.consolePut b).regs = s.regs := rfl
@[simp] theorem State.consolePut_pc (s : State) (b : Byte) :
    (s.consolePut b).pc = s.pc := rfl
@[simp] theorem State.consolePut_n (s : State) (b : Byte) :
    (s.consolePut b).n = s.n := rfl
@[simp] theorem State.consolePut_z (s : State) (b : Byte) :
    (s.consolePut b).z = s.z := rfl
@[simp] theorem State.consolePut_p (s : State) (b : Byte) :
    (s.consolePut b).p = s.p := rfl
@[simp] theorem State.consolePut_ir (s : State) (b : Byte) :
    (s.consolePut b).ir = s.ir := rfl
@[simp] theorem State.consolePut_halted (s : State) (b : Byte) :
    (s.consolePut b).halted = s.halted := rfl
@[simp] theorem State.consolePut_counter (s : State) (b : Byte) :
    (s.consolePut b).counter = s.counter := rfl
@[simp] theorem State.consolePut_spc (s : State) (b : Byte) :
    (s.consolePut b).spc = s.spc := rfl
@[simp] theorem State.consolePut_mem (s : State) (b : Byte) :
    (s.consolePut b).mem = s.mem := rfl
@[simp] theorem State.consolePut_consoleOut (s : State) (b : Byte) :
    (s.consolePut b).consoleOut = s.consoleOut ++ [b] := rfl
@[simp] theorem State.consolePut_inputConsumed (s : State) (b : Byte) :
    (s.consolePut b).inputConsumed = s.inputConsumed := rfl
@[simp] theorem State.consolePut_inputPending (s : State) (b : Byte) :
    (s.consolePut b).inputPending = s.inputPending := rfl
@[simp] theorem State.consolePut_waiting (s : State) (b : Byte) :
    (s.consolePut b).waiting = s.waiting := rfl
@[simp] theorem State.consolePut_reports (s : State) (b : Byte) :
    (s.consolePut b).reports = s.reports := rfl
@[simp] theorem State.consolePut_loadFloor (s : State) (b : Byte) :
    (s.consolePut b).loadFloor = s.loadFloor := rfl

/-! ### `consume` -/

@[simp] theorem State.consume_cfg (s : State) (c : Byte) (rest : List Byte) :
    (s.consume c rest).cfg = s.cfg := rfl
@[simp] theorem State.consume_regs (s : State) (c : Byte) (rest : List Byte) :
    (s.consume c rest).regs = s.regs := rfl
@[simp] theorem State.consume_pc (s : State) (c : Byte) (rest : List Byte) :
    (s.consume c rest).pc = s.pc := rfl
@[simp] theorem State.consume_n (s : State) (c : Byte) (rest : List Byte) :
    (s.consume c rest).n = s.n := rfl
@[simp] theorem State.consume_z (s : State) (c : Byte) (rest : List Byte) :
    (s.consume c rest).z = s.z := rfl
@[simp] theorem State.consume_p (s : State) (c : Byte) (rest : List Byte) :
    (s.consume c rest).p = s.p := rfl
@[simp] theorem State.consume_ir (s : State) (c : Byte) (rest : List Byte) :
    (s.consume c rest).ir = s.ir := rfl
@[simp] theorem State.consume_halted (s : State) (c : Byte) (rest : List Byte) :
    (s.consume c rest).halted = s.halted := rfl
@[simp] theorem State.consume_counter (s : State) (c : Byte) (rest : List Byte) :
    (s.consume c rest).counter = s.counter := rfl
@[simp] theorem State.consume_spc (s : State) (c : Byte) (rest : List Byte) :
    (s.consume c rest).spc = s.spc := rfl
@[simp] theorem State.consume_mem (s : State) (c : Byte) (rest : List Byte) :
    (s.consume c rest).mem = s.mem := rfl
@[simp] theorem State.consume_consoleOut (s : State) (c : Byte) (rest : List Byte) :
    (s.consume c rest).consoleOut = s.consoleOut := rfl
@[simp] theorem State.consume_inputConsumed (s : State) (c : Byte) (rest : List Byte) :
    (s.consume c rest).inputConsumed = s.inputConsumed ++ [c] := rfl
@[simp] theorem State.consume_inputPending (s : State) (c : Byte) (rest : List Byte) :
    (s.consume c rest).inputPending = rest := rfl
@[simp] theorem State.consume_waiting (s : State) (c : Byte) (rest : List Byte) :
    (s.consume c rest).waiting = false := rfl
@[simp] theorem State.consume_reports (s : State) (c : Byte) (rest : List Byte) :
    (s.consume c rest).reports = s.reports := rfl
@[simp] theorem State.consume_loadFloor (s : State) (c : Byte) (rest : List Byte) :
    (s.consume c rest).loadFloor = s.loadFloor := rfl

/-! ### `setcc` -/

@[simp] theorem State.setcc_cfg (s : State) (v : Word) :
    (s.setcc v).cfg = s.cfg := rfl
@[simp] theorem State.setcc_regs (s : State) (v : Word) :
    (s.setcc v).regs = s.regs := rfl
@[simp] theorem State.setcc_pc (s : State) (v : Word) :
    (s.setcc v).pc = s.pc := rfl
@[simp] theorem State.setcc_n (s : State) (v : Word) :
    (s.setcc v).n = v.getLsbD 15 := rfl
@[simp] theorem State.setcc_z (s : State) (v : Word) :
    (s.setcc v).z = (v == 0x0000) := rfl
@[simp] theorem State.setcc_p (s : State) (v : Word) :
    (s.setcc v).p = (!v.getLsbD 15 && v != 0x0000) := rfl
@[simp] theorem State.setcc_ir (s : State) (v : Word) :
    (s.setcc v).ir = s.ir := rfl
@[simp] theorem State.setcc_halted (s : State) (v : Word) :
    (s.setcc v).halted = s.halted := rfl
@[simp] theorem State.setcc_counter (s : State) (v : Word) :
    (s.setcc v).counter = s.counter := rfl
@[simp] theorem State.setcc_spc (s : State) (v : Word) :
    (s.setcc v).spc = s.spc := rfl
@[simp] theorem State.setcc_mem (s : State) (v : Word) :
    (s.setcc v).mem = s.mem := rfl
@[simp] theorem State.setcc_consoleOut (s : State) (v : Word) :
    (s.setcc v).consoleOut = s.consoleOut := rfl
@[simp] theorem State.setcc_inputConsumed (s : State) (v : Word) :
    (s.setcc v).inputConsumed = s.inputConsumed := rfl
@[simp] theorem State.setcc_inputPending (s : State) (v : Word) :
    (s.setcc v).inputPending = s.inputPending := rfl
@[simp] theorem State.setcc_waiting (s : State) (v : Word) :
    (s.setcc v).waiting = s.waiting := rfl
@[simp] theorem State.setcc_reports (s : State) (v : Word) :
    (s.setcc v).reports = s.reports := rfl
@[simp] theorem State.setcc_loadFloor (s : State) (v : Word) :
    (s.setcc v).loadFloor = s.loadFloor := rfl

/-! ### `fetched` -/

@[simp] theorem State.fetched_cfg (s : State) (w : Word) :
    (s.fetched w).cfg = s.cfg := rfl
@[simp] theorem State.fetched_regs (s : State) (w : Word) :
    (s.fetched w).regs = s.regs := rfl
@[simp] theorem State.fetched_pc (s : State) (w : Word) :
    (s.fetched w).pc = s.pc + 1 := rfl
@[simp] theorem State.fetched_n (s : State) (w : Word) :
    (s.fetched w).n = s.n := rfl
@[simp] theorem State.fetched_z (s : State) (w : Word) :
    (s.fetched w).z = s.z := rfl
@[simp] theorem State.fetched_p (s : State) (w : Word) :
    (s.fetched w).p = s.p := rfl
@[simp] theorem State.fetched_ir (s : State) (w : Word) :
    (s.fetched w).ir = w := rfl
@[simp] theorem State.fetched_halted (s : State) (w : Word) :
    (s.fetched w).halted = s.halted := rfl
@[simp] theorem State.fetched_counter (s : State) (w : Word) :
    (s.fetched w).counter = s.counter := rfl
@[simp] theorem State.fetched_spc (s : State) (w : Word) :
    (s.fetched w).spc = s.spc := rfl
@[simp] theorem State.fetched_mem (s : State) (w : Word) :
    (s.fetched w).mem = s.mem := rfl
@[simp] theorem State.fetched_consoleOut (s : State) (w : Word) :
    (s.fetched w).consoleOut = s.consoleOut := rfl
@[simp] theorem State.fetched_inputConsumed (s : State) (w : Word) :
    (s.fetched w).inputConsumed = s.inputConsumed := rfl
@[simp] theorem State.fetched_inputPending (s : State) (w : Word) :
    (s.fetched w).inputPending = s.inputPending := rfl
@[simp] theorem State.fetched_waiting (s : State) (w : Word) :
    (s.fetched w).waiting = false := rfl
@[simp] theorem State.fetched_reports (s : State) (w : Word) :
    (s.fetched w).reports = s.reports := rfl
@[simp] theorem State.fetched_loadFloor (s : State) (w : Word) :
    (s.fetched w).loadFloor = s.loadFloor := rfl

/-! ### `commit` -/

@[simp] theorem State.commit_cfg (s : State) :
    (s.commit).cfg = s.cfg := rfl
@[simp] theorem State.commit_regs (s : State) :
    (s.commit).regs = s.regs := rfl
@[simp] theorem State.commit_pc (s : State) :
    (s.commit).pc = s.pc := rfl
@[simp] theorem State.commit_n (s : State) :
    (s.commit).n = s.n := rfl
@[simp] theorem State.commit_z (s : State) :
    (s.commit).z = s.z := rfl
@[simp] theorem State.commit_p (s : State) :
    (s.commit).p = s.p := rfl
@[simp] theorem State.commit_ir (s : State) :
    (s.commit).ir = s.ir := rfl
@[simp] theorem State.commit_halted (s : State) :
    (s.commit).halted = s.halted := rfl
@[simp] theorem State.commit_counter (s : State) :
    (s.commit).counter = s.counter + 1 := rfl
@[simp] theorem State.commit_spc (s : State) :
    (s.commit).spc = s.spc := rfl
@[simp] theorem State.commit_mem (s : State) :
    (s.commit).mem = s.mem := rfl
@[simp] theorem State.commit_consoleOut (s : State) :
    (s.commit).consoleOut = s.consoleOut := rfl
@[simp] theorem State.commit_inputConsumed (s : State) :
    (s.commit).inputConsumed = s.inputConsumed := rfl
@[simp] theorem State.commit_inputPending (s : State) :
    (s.commit).inputPending = s.inputPending := rfl
@[simp] theorem State.commit_waiting (s : State) :
    (s.commit).waiting = s.waiting := rfl
@[simp] theorem State.commit_reports (s : State) :
    (s.commit).reports = s.reports := rfl
@[simp] theorem State.commit_loadFloor (s : State) :
    (s.commit).loadFloor = s.loadFloor := rfl

/-! ### `supplyInput` -/

@[simp] theorem State.supplyInput_cfg (s : State) (cs : List Byte) :
    (s.supplyInput cs).cfg = s.cfg := rfl
@[simp] theorem State.supplyInput_regs (s : State) (cs : List Byte) :
    (s.supplyInput cs).regs = s.regs := rfl
@[simp] theorem State.supplyInput_pc (s : State) (cs : List Byte) :
    (s.supplyInput cs).pc = s.pc := rfl
@[simp] theorem State.supplyInput_n (s : State) (cs : List Byte) :
    (s.supplyInput cs).n = s.n := rfl
@[simp] theorem State.supplyInput_z (s : State) (cs : List Byte) :
    (s.supplyInput cs).z = s.z := rfl
@[simp] theorem State.supplyInput_p (s : State) (cs : List Byte) :
    (s.supplyInput cs).p = s.p := rfl
@[simp] theorem State.supplyInput_ir (s : State) (cs : List Byte) :
    (s.supplyInput cs).ir = s.ir := rfl
@[simp] theorem State.supplyInput_halted (s : State) (cs : List Byte) :
    (s.supplyInput cs).halted = s.halted := rfl
@[simp] theorem State.supplyInput_counter (s : State) (cs : List Byte) :
    (s.supplyInput cs).counter = s.counter := rfl
@[simp] theorem State.supplyInput_spc (s : State) (cs : List Byte) :
    (s.supplyInput cs).spc = s.spc := rfl
@[simp] theorem State.supplyInput_mem (s : State) (cs : List Byte) :
    (s.supplyInput cs).mem = s.mem := rfl
@[simp] theorem State.supplyInput_consoleOut (s : State) (cs : List Byte) :
    (s.supplyInput cs).consoleOut = s.consoleOut := rfl
@[simp] theorem State.supplyInput_inputConsumed (s : State) (cs : List Byte) :
    (s.supplyInput cs).inputConsumed = s.inputConsumed := rfl
@[simp] theorem State.supplyInput_inputPending (s : State) (cs : List Byte) :
    (s.supplyInput cs).inputPending = s.inputPending ++ cs := rfl
@[simp] theorem State.supplyInput_waiting (s : State) (cs : List Byte) :
    (s.supplyInput cs).waiting = s.waiting := rfl
@[simp] theorem State.supplyInput_reports (s : State) (cs : List Byte) :
    (s.supplyInput cs).reports = s.reports := rfl
@[simp] theorem State.supplyInput_loadFloor (s : State) (cs : List Byte) :
    (s.supplyInput cs).loadFloor = s.loadFloor := rfl

/-! ### `noteLoadBase` -/

@[simp] theorem State.noteLoadBase_cfg (s : State) (b : Nat) :
    (s.noteLoadBase b).cfg = s.cfg := rfl
@[simp] theorem State.noteLoadBase_regs (s : State) (b : Nat) :
    (s.noteLoadBase b).regs = s.regs := rfl
@[simp] theorem State.noteLoadBase_pc (s : State) (b : Nat) :
    (s.noteLoadBase b).pc = s.pc := rfl
@[simp] theorem State.noteLoadBase_n (s : State) (b : Nat) :
    (s.noteLoadBase b).n = s.n := rfl
@[simp] theorem State.noteLoadBase_z (s : State) (b : Nat) :
    (s.noteLoadBase b).z = s.z := rfl
@[simp] theorem State.noteLoadBase_p (s : State) (b : Nat) :
    (s.noteLoadBase b).p = s.p := rfl
@[simp] theorem State.noteLoadBase_ir (s : State) (b : Nat) :
    (s.noteLoadBase b).ir = s.ir := rfl
@[simp] theorem State.noteLoadBase_halted (s : State) (b : Nat) :
    (s.noteLoadBase b).halted = s.halted := rfl
@[simp] theorem State.noteLoadBase_counter (s : State) (b : Nat) :
    (s.noteLoadBase b).counter = s.counter := rfl
@[simp] theorem State.noteLoadBase_spc (s : State) (b : Nat) :
    (s.noteLoadBase b).spc = s.spc := rfl
@[simp] theorem State.noteLoadBase_mem (s : State) (b : Nat) :
    (s.noteLoadBase b).mem = s.mem := rfl
@[simp] theorem State.noteLoadBase_consoleOut (s : State) (b : Nat) :
    (s.noteLoadBase b).consoleOut = s.consoleOut := rfl
@[simp] theorem State.noteLoadBase_inputConsumed (s : State) (b : Nat) :
    (s.noteLoadBase b).inputConsumed = s.inputConsumed := rfl
@[simp] theorem State.noteLoadBase_inputPending (s : State) (b : Nat) :
    (s.noteLoadBase b).inputPending = s.inputPending := rfl
@[simp] theorem State.noteLoadBase_waiting (s : State) (b : Nat) :
    (s.noteLoadBase b).waiting = s.waiting := rfl
@[simp] theorem State.noteLoadBase_reports (s : State) (b : Nat) :
    (s.noteLoadBase b).reports = s.reports := rfl
@[simp] theorem State.noteLoadBase_loadFloor (s : State) (b : Nat) :
    (s.noteLoadBase b).loadFloor = some (min b (s.loadFloor.getD b)) := rfl

/-! ### `dropLatch` -/

@[simp] theorem State.dropLatch_cfg (cur t : State) :
    (cur.dropLatch t).cfg = t.cfg := rfl
@[simp] theorem State.dropLatch_regs (cur t : State) :
    (cur.dropLatch t).regs = cur.regs := rfl
@[simp] theorem State.dropLatch_pc (cur t : State) :
    (cur.dropLatch t).pc = cur.pc := rfl
@[simp] theorem State.dropLatch_n (cur t : State) :
    (cur.dropLatch t).n = cur.n := rfl
@[simp] theorem State.dropLatch_z (cur t : State) :
    (cur.dropLatch t).z = cur.z := rfl
@[simp] theorem State.dropLatch_p (cur t : State) :
    (cur.dropLatch t).p = cur.p := rfl
@[simp] theorem State.dropLatch_ir (cur t : State) :
    (cur.dropLatch t).ir = cur.ir := rfl
@[simp] theorem State.dropLatch_halted (cur t : State) :
    (cur.dropLatch t).halted = t.halted := rfl
@[simp] theorem State.dropLatch_counter (cur t : State) :
    (cur.dropLatch t).counter = t.counter := rfl
@[simp] theorem State.dropLatch_spc (cur t : State) :
    (cur.dropLatch t).spc = t.spc := rfl
@[simp] theorem State.dropLatch_mem (cur t : State) :
    (cur.dropLatch t).mem = t.mem := rfl
@[simp] theorem State.dropLatch_consoleOut (cur t : State) :
    (cur.dropLatch t).consoleOut = t.consoleOut := rfl
@[simp] theorem State.dropLatch_inputConsumed (cur t : State) :
    (cur.dropLatch t).inputConsumed = t.inputConsumed := rfl
@[simp] theorem State.dropLatch_inputPending (cur t : State) :
    (cur.dropLatch t).inputPending = t.inputPending := rfl
@[simp] theorem State.dropLatch_waiting (cur t : State) :
    (cur.dropLatch t).waiting = t.waiting := rfl
@[simp] theorem State.dropLatch_reports (cur t : State) :
    (cur.dropLatch t).reports = t.reports := rfl
@[simp] theorem State.dropLatch_loadFloor (cur t : State) :
    (cur.dropLatch t).loadFloor = t.loadFloor := rfl

/-! ### Register and word reads after each update -/

@[simp] theorem State.setReg_word (s : State) (r : Reg) (v : Word) (i : Nat) :
    (s.setReg r v).word i = s.word i := rfl
@[simp] theorem State.setPc_reg (s : State) (v : Word) (q : Reg) :
    (s.setPc v).reg q = s.reg q := rfl
@[simp] theorem State.setPc_word (s : State) (v : Word) (i : Nat) :
    (s.setPc v).word i = s.word i := rfl
@[simp] theorem State.setWord_reg (s : State) (a : Nat) (v : Word) (q : Reg) :
    (s.setWord a v).reg q = s.reg q := rfl
@[simp] theorem State.report_reg (s : State) (r : Report) (q : Reg) :
    (s.report r).reg q = s.reg q := rfl
@[simp] theorem State.report_word (s : State) (r : Report) (i : Nat) :
    (s.report r).word i = s.word i := rfl
@[simp] theorem State.consolePut_reg (s : State) (b : Byte) (q : Reg) :
    (s.consolePut b).reg q = s.reg q := rfl
@[simp] theorem State.consolePut_word (s : State) (b : Byte) (i : Nat) :
    (s.consolePut b).word i = s.word i := rfl
@[simp] theorem State.consume_reg (s : State) (c : Byte) (rest : List Byte) (q : Reg) :
    (s.consume c rest).reg q = s.reg q := rfl
@[simp] theorem State.consume_word (s : State) (c : Byte) (rest : List Byte) (i : Nat) :
    (s.consume c rest).word i = s.word i := rfl
@[simp] theorem State.setcc_reg (s : State) (v : Word) (q : Reg) :
    (s.setcc v).reg q = s.reg q := rfl
@[simp] theorem State.setcc_word (s : State) (v : Word) (i : Nat) :
    (s.setcc v).word i = s.word i := rfl
@[simp] theorem State.fetched_reg (s : State) (w : Word) (q : Reg) :
    (s.fetched w).reg q = s.reg q := rfl
@[simp] theorem State.fetched_word (s : State) (w : Word) (i : Nat) :
    (s.fetched w).word i = s.word i := rfl
@[simp] theorem State.commit_reg (s : State) (q : Reg) :
    (s.commit).reg q = s.reg q := rfl
@[simp] theorem State.commit_word (s : State) (i : Nat) :
    (s.commit).word i = s.word i := rfl
@[simp] theorem State.supplyInput_reg (s : State) (cs : List Byte) (q : Reg) :
    (s.supplyInput cs).reg q = s.reg q := rfl
@[simp] theorem State.supplyInput_word (s : State) (cs : List Byte) (i : Nat) :
    (s.supplyInput cs).word i = s.word i := rfl
@[simp] theorem State.noteLoadBase_reg (s : State) (b : Nat) (q : Reg) :
    (s.noteLoadBase b).reg q = s.reg q := rfl
@[simp] theorem State.noteLoadBase_word (s : State) (b : Nat) (i : Nat) :
    (s.noteLoadBase b).word i = s.word i := rfl
@[simp] theorem State.dropLatch_reg (cur t : State) (q : Reg) :
    (cur.dropLatch t).reg q = cur.reg q := rfl
@[simp] theorem State.dropLatch_word (cur t : State) (i : Nat) :
    (cur.dropLatch t).word i = t.word i := rfl

end Sys2Proof.Machine
end

