-- ==== Sys2Proof/Laws/Ops.lean ====
section
/-! SUPPORT. What each shared operation can do, said once: later proofs cite these lemmas and do not
unfold the operations. -/

namespace Sys2Proof.Machine

/-! ### Registers and memory -/

theorem State.reg_setReg (s : State) (r : Reg) (v : Word) (q : Reg) :
    (s.setReg r v).reg q = if q = r then v else s.reg q := by
  simp only [State.reg, State.setReg_regs, Vector.getElem_set, Fin.ext_iff, eq_comm (a := r.val)]

@[simp] theorem State.reg_setReg_same (s : State) (r : Reg) (v : Word) : (s.setReg r v).reg r = v := by
  rw [State.reg_setReg, if_pos rfl]

theorem State.reg_setReg_ne (s : State) {r q : Reg} (v : Word) (ne : q ≠ r) :
    (s.setReg r v).reg q = s.reg q := by
  rw [State.reg_setReg, if_neg ne]

theorem State.word_setWord_ne (s : State) {a i : Nat} (v : Word) (ne : i ≠ a) :
    (s.setWord a v).word i = s.word i :=
  Memory.read_write_ne s.mem v ne

theorem State.word_setWord_same {s : State} (wf : Memory.wf s.mem = true) (a : Nat) (v : Word) :
    (s.setWord a v).word a = v :=
  Memory.read_write_same wf a v

/-! ### Addresses -/

theorem memIndex_lt {c : Config} {addr : Word} {a : Nat} (h : memIndex c addr = some a) :
    a < memWords := by
  unfold memIndex at h
  split at h
  · exact Option.some.inj h ▸ ‹_›
  · split at h
    · have := (addr.extractLsb' 0 15).isLt
      exact Option.some.inj h ▸ this
    · cases h

/-! ### Warnings and console output -/

/-- A warning only adds to the reports. -/
theorem State.warn_spec (s : State) (addr : Word) (a : Nat) :
    s.warn addr a =
      { s with reports := s.reports ++ if s.unsafeIndex a then [.memWarning addr] else [] } := by
  unfold State.warn
  split <;> simp [State.report]

@[simp] theorem State.warn_cfg (s : State) (addr : Word) (a : Nat) :
    (s.warn addr a).cfg = s.cfg := by rw [State.warn_spec]
@[simp] theorem State.warn_regs (s : State) (addr : Word) (a : Nat) :
    (s.warn addr a).regs = s.regs := by rw [State.warn_spec]
@[simp] theorem State.warn_pc (s : State) (addr : Word) (a : Nat) :
    (s.warn addr a).pc = s.pc := by rw [State.warn_spec]
@[simp] theorem State.warn_n (s : State) (addr : Word) (a : Nat) :
    (s.warn addr a).n = s.n := by rw [State.warn_spec]
@[simp] theorem State.warn_z (s : State) (addr : Word) (a : Nat) :
    (s.warn addr a).z = s.z := by rw [State.warn_spec]
@[simp] theorem State.warn_p (s : State) (addr : Word) (a : Nat) :
    (s.warn addr a).p = s.p := by rw [State.warn_spec]
@[simp] theorem State.warn_ir (s : State) (addr : Word) (a : Nat) :
    (s.warn addr a).ir = s.ir := by rw [State.warn_spec]
@[simp] theorem State.warn_halted (s : State) (addr : Word) (a : Nat) :
    (s.warn addr a).halted = s.halted := by rw [State.warn_spec]
@[simp] theorem State.warn_counter (s : State) (addr : Word) (a : Nat) :
    (s.warn addr a).counter = s.counter := by rw [State.warn_spec]
@[simp] theorem State.warn_spc (s : State) (addr : Word) (a : Nat) :
    (s.warn addr a).spc = s.spc := by rw [State.warn_spec]
@[simp] theorem State.warn_mem (s : State) (addr : Word) (a : Nat) :
    (s.warn addr a).mem = s.mem := by rw [State.warn_spec]
@[simp] theorem State.warn_consoleOut (s : State) (addr : Word) (a : Nat) :
    (s.warn addr a).consoleOut = s.consoleOut := by rw [State.warn_spec]
@[simp] theorem State.warn_inputConsumed (s : State) (addr : Word) (a : Nat) :
    (s.warn addr a).inputConsumed = s.inputConsumed := by rw [State.warn_spec]
@[simp] theorem State.warn_inputPending (s : State) (addr : Word) (a : Nat) :
    (s.warn addr a).inputPending = s.inputPending := by rw [State.warn_spec]
@[simp] theorem State.warn_waiting (s : State) (addr : Word) (a : Nat) :
    (s.warn addr a).waiting = s.waiting := by rw [State.warn_spec]
@[simp] theorem State.warn_loadFloor (s : State) (addr : Word) (a : Nat) :
    (s.warn addr a).loadFloor = s.loadFloor := by rw [State.warn_spec]
@[simp] theorem State.warn_reg (s : State) (addr : Word) (a : Nat) (q : Reg) :
    (s.warn addr a).reg q = s.reg q := by rw [State.warn_spec]; rfl
@[simp] theorem State.warn_word (s : State) (addr : Word) (a i : Nat) :
    (s.warn addr a).word i = s.word i := by rw [State.warn_spec]; rfl
@[simp] theorem State.warn_readIndex (s : State) (addr : Word) (a i : Nat) :
    (s.warn addr a).readIndex i = s.readIndex i := by rw [State.warn_spec]; rfl
@[simp] theorem State.warn_unsafeIndex (s : State) (addr : Word) (a i : Nat) :
    (s.warn addr a).unsafeIndex i = s.unsafeIndex i := by rw [State.warn_spec]; rfl

/-- Output of one character only adds to the console output. -/
theorem State.consolePutCr_spec (translate : Bool) (s : State) (b : Byte) :
    s.consolePutCr translate b =
      { s with consoleOut :=
          s.consoleOut ++ if translate && b == 0x0D then [b, 0x0A] else [b] } := by
  unfold State.consolePutCr
  split <;> simp [State.consolePut]

/-- The bytes PUTS outputs for a word. -/
def putsBytes (c : Config) (w : Word) : List Byte :=
  if c.crlfAll && lowByte w == 0x0D then [lowByte w, 0x0A] else [lowByte w]

/-- The bytes PUTSP outputs for a word. -/
def putspBytes (c : Config) (w : Word) : List Byte :=
  putsBytes c w ++
    if highByte w ≠ 0x00 ∨ c.putspSkipZeroHigh = false then
      if c.crlfAll && highByte w == 0x0D then [highByte w, 0x0A] else [highByte w]
    else []

theorem putsWord_spec (s : State) (w : Word) :
    putsWord s w = { s with consoleOut := s.consoleOut ++ putsBytes s.cfg w } :=
  State.consolePutCr_spec _ _ _

theorem putspWord_spec (s : State) (w : Word) :
    putspWord s w = { s with consoleOut := s.consoleOut ++ putspBytes s.cfg w } := by
  simp only [putspWord, State.consolePutCr_spec, putspBytes, putsBytes]
  split <;> simp [List.append_assoc]

/-! ### The memory interface -/

theorem readThen_some {s : State} {addr : Word} {a : Nat} (h : memIndex s.cfg addr = some a)
    (next : Word → State → Result) :
    readThen s addr next = next (s.readIndex a) (s.warn addr a) := by
  simp only [readThen, h]

theorem readThen_none {s : State} {addr : Word} (h : memIndex s.cfg addr = none)
    (next : Word → State → Result) : readThen s addr next = .refused (.outOfRange addr) := by
  simp only [readThen, h]

/-- Where a read and what follows it end in a next state. -/
theorem readThen_next {s t : State} {addr : Word} {next : Word → State → Result}
    (h : readThen s addr next = .next t) :
    ∃ a, memIndex s.cfg addr = some a ∧ next (s.readIndex a) (s.warn addr a) = .next t := by
  unfold readThen at h
  split at h
  · cases h
  · exact ⟨_, ‹_›, h⟩

theorem memWrite_some {s : State} {addr : Word} {a : Nat} (h : memIndex s.cfg addr = some a)
    (v : Word) : memWrite s addr v = .next ((s.warn addr a).writeIndex a v) := by
  simp only [memWrite, h]

theorem memWrite_none {s : State} {addr : Word} (h : memIndex s.cfg addr = none) (v : Word) :
    memWrite s addr v = .refused (.outOfRange addr) := by
  simp only [memWrite, h]

theorem memWrite_next {s t : State} {addr v : Word} (h : memWrite s addr v = .next t) :
    ∃ a, memIndex s.cfg addr = some a ∧ t = (s.warn addr a).writeIndex a v := by
  unfold memWrite at h
  split at h
  · cases h
  · exact ⟨_, ‹_›, (Host.Outcome.next.inj h).symm⟩

/-- What a write at an index changes: the console output or the word there, nothing else. -/
theorem State.writeIndex_spec (s : State) (a : Nat) (v : Word) :
    (a = s.cfg.ddrAddr ∧
      s.writeIndex a v = { s with consoleOut := s.consoleOut ++ putsBytes s.cfg v }) ∨
    (a ≠ s.cfg.ddrAddr ∧ a = s.cfg.dsrAddr ∧ s.writeIndex a v = s) ∨
    (a ≠ s.cfg.ddrAddr ∧ a ≠ s.cfg.dsrAddr ∧ s.writeIndex a v = s.setWord a v) := by
  unfold State.writeIndex
  split
  · exact .inl ⟨‹_›, State.consolePutCr_spec _ _ _⟩
  · split
    · exact .inr (.inl ⟨‹_›, ‹_›, rfl⟩)
    · exact .inr (.inr ⟨‹_›, ‹_›, rfl⟩)

/-! ### The call stack -/

theorem State.stackPush_full {s : State} (full : s.spc ≤ s.cfg.stackLimit) (v : Word) :
    s.stackPush v = s.report (.stackOverflow v) := by
  simp only [State.stackPush, if_pos full]

theorem State.stackPush_room {s : State} (room : s.cfg.stackLimit < s.spc) (v : Word) :
    s.stackPush v = { s.setWord (s.spc - 1) v with spc := s.spc - 1 } := by
  simp only [State.stackPush, if_neg (Nat.not_le.2 room), State.setWord]

theorem State.stackPop_empty {s : State} (empty : s.spc = s.cfg.stackTop) :
    s.stackPop = (s.cfg.popSentinel, s.report .stackUnderflow) := by
  simp only [State.stackPop, if_pos empty]

theorem State.stackPop_entry {s : State} (entry : s.spc ≠ s.cfg.stackTop) :
    s.stackPop = (s.word s.spc, { s with spc := s.spc + 1 }) := by
  simp only [State.stackPop, if_neg entry]

/-! ### Console input -/

/-- The character-input service, in its three cases. -/
theorem charInput_spec (s : State) :
    (s.inputPending = [] ∧ charInput s = .next { s with waiting := true }) ∨
    ∃ c rest, s.inputPending = c :: rest ∧
      ((c ∈ s.cfg.interruptChars ∧ charInput s = .fault (.keyboardInterrupt c)) ∨
       (c ∉ s.cfg.interruptChars ∧
          charInput s = .next ((s.consume c rest).setReg 0 (zext c)))) := by
  unfold charInput
  split
  · exact .inl ⟨‹_›, rfl⟩
  · refine .inr ⟨_, _, ‹_›, ?_⟩
    split
    · exact .inl ⟨‹_›, rfl⟩
    · exact .inr ⟨‹_›, rfl⟩

/-! ### String output -/

/-- A string walk whose `emit` only adds to the console output never faults; it ends in a next state
that differs from the first in console output and reports only, or it is refused. -/
theorem stringWalk_spec {emit : State → Word → State} {bytes : Config → Word → List Byte}
    (emits : ∀ s w, emit s w = { s with consoleOut := s.consoleOut ++ bytes s.cfg w }) (fuel : Nat)
    (addr : Word) (s : State) :
    (∃ out reports, stringWalk emit fuel addr s =
      .next { s with consoleOut := s.consoleOut ++ out, reports := s.reports ++ reports }) ∨
    ∃ bad, memIndex s.cfg bad = none ∧ stringWalk emit fuel addr s = .refused (.outOfRange bad) := by
  induction fuel generalizing addr s with
  | zero => exact .inl ⟨[], [], by simp [stringWalk]⟩
  | succ fuel ih =>
    unfold stringWalk
    split
    · exact .inr ⟨addr, ‹_›, rfl⟩
    · rename_i a _
      split
      · exact .inl ⟨[], if s.unsafeIndex a then [.memWarning addr] else [], by
          simp [State.warn_spec]⟩
      · obtain ⟨out, reports, h⟩ | ⟨bad, none, h⟩ :=
          ih (nextStringAddr a) (emit (s.warn addr a) (s.readIndex a))
        · exact .inl ⟨bytes s.cfg (s.readIndex a) ++ out,
            (if s.unsafeIndex a then [.memWarning addr] else []) ++ reports, by
              rw [h]; simp [emits, State.warn_spec, List.append_assoc]⟩
        · exact .inr ⟨bad, by simpa [emits, State.warn_spec] using none, h⟩

theorem putString_spec (s : State) :
    (∃ out reports, putString s =
      .next { s with consoleOut := s.consoleOut ++ out, reports := s.reports ++ reports }) ∨
    ∃ bad, memIndex s.cfg bad = none ∧ putString s = .refused (.outOfRange bad) :=
  stringWalk_spec putsWord_spec _ _ _

theorem putPackedString_spec (s : State) :
    (∃ out reports, putPackedString s =
      .next { s with consoleOut := s.consoleOut ++ out, reports := s.reports ++ reports }) ∨
    ∃ bad, memIndex s.cfg bad = none ∧ putPackedString s = .refused (.outOfRange bad) :=
  stringWalk_spec putspWord_spec _ _ _

/-! ### The cycle -/

/-- Halt detection only sets the halted flag. -/
theorem State.boundary_spec (s : State) :
    s.boundary = { s with halted := s.halted || decide (s.pc = 0x0000) } := by
  unfold State.boundary
  split <;> simp_all

/-- How a cycle that ends in a next state has ended. -/
theorem finishCycle_next {cur t : State} {r : Result} (h : finishCycle cur r = .next t) :
    ∃ u, r = .next u ∧
      ((u.waiting = true ∧ t = cur.dropLatch u) ∨ (u.waiting = false ∧ t = u.commit.boundary)) := by
  unfold finishCycle at h
  split at h
  · split at h
    · exact ⟨_, rfl, .inl ⟨‹_›, (Host.Outcome.next.inj h).symm⟩⟩
    · exact ⟨_, rfl, .inr ⟨by simp_all, (Host.Outcome.next.inj h).symm⟩⟩
  · cases h
  · cases h

/-- The state in which the handler runs: the fetched word in IR, the PC incremented, the fetch's
warning reported unless a wait has reported it, no wait in progress. -/
def handlerState (s : State) (a : Nat) : State :=
  (if s.waiting then s else s.warn s.pc a).fetched (s.readIndex a)

theorem handlerState_spec (s : State) (a : Nat) :
    handlerState s a =
      { s with
        ir := s.readIndex a, pc := s.pc + 1, waiting := false
        reports := s.reports ++
          if s.waiting then [] else if s.unsafeIndex a then [.memWarning s.pc] else [] } := by
  unfold handlerState
  split <;> simp [State.fetched, State.warn_spec]

@[simp] theorem handlerState_cfg (s : State) (a : Nat) :
    (handlerState s a).cfg = s.cfg := by rw [handlerState_spec]
@[simp] theorem handlerState_regs (s : State) (a : Nat) :
    (handlerState s a).regs = s.regs := by rw [handlerState_spec]
@[simp] theorem handlerState_n (s : State) (a : Nat) :
    (handlerState s a).n = s.n := by rw [handlerState_spec]
@[simp] theorem handlerState_z (s : State) (a : Nat) :
    (handlerState s a).z = s.z := by rw [handlerState_spec]
@[simp] theorem handlerState_p (s : State) (a : Nat) :
    (handlerState s a).p = s.p := by rw [handlerState_spec]
@[simp] theorem handlerState_halted (s : State) (a : Nat) :
    (handlerState s a).halted = s.halted := by rw [handlerState_spec]
@[simp] theorem handlerState_counter (s : State) (a : Nat) :
    (handlerState s a).counter = s.counter := by rw [handlerState_spec]
@[simp] theorem handlerState_spc (s : State) (a : Nat) :
    (handlerState s a).spc = s.spc := by rw [handlerState_spec]
@[simp] theorem handlerState_mem (s : State) (a : Nat) :
    (handlerState s a).mem = s.mem := by rw [handlerState_spec]
@[simp] theorem handlerState_consoleOut (s : State) (a : Nat) :
    (handlerState s a).consoleOut = s.consoleOut := by rw [handlerState_spec]
@[simp] theorem handlerState_inputConsumed (s : State) (a : Nat) :
    (handlerState s a).inputConsumed = s.inputConsumed := by rw [handlerState_spec]
@[simp] theorem handlerState_inputPending (s : State) (a : Nat) :
    (handlerState s a).inputPending = s.inputPending := by rw [handlerState_spec]
@[simp] theorem handlerState_loadFloor (s : State) (a : Nat) :
    (handlerState s a).loadFloor = s.loadFloor := by rw [handlerState_spec]
@[simp] theorem handlerState_pc (s : State) (a : Nat) :
    (handlerState s a).pc = s.pc + 1 := by rw [handlerState_spec]
@[simp] theorem handlerState_ir (s : State) (a : Nat) :
    (handlerState s a).ir = s.readIndex a := by rw [handlerState_spec]
@[simp] theorem handlerState_waiting (s : State) (a : Nat) :
    (handlerState s a).waiting = false := by rw [handlerState_spec]
@[simp] theorem handlerState_reg (s : State) (a : Nat) (q : Reg) :
    (handlerState s a).reg q = s.reg q := by rw [handlerState_spec]; rfl
@[simp] theorem handlerState_word (s : State) (a i : Nat) :
    (handlerState s a).word i = s.word i := by rw [handlerState_spec]; rfl

theorem cycle_some {s : State} {a : Nat} (h : memIndex s.cfg s.pc = some a) :
    cycle s = finishCycle s (exec (decode (s.readIndex a)) (handlerState s a)) :=
  readThen_some h _

/-- What a step that ends in a next state has done: nothing in a halted machine; halt detection at
PC = 0x0000; or a cycle, which has committed or waits. -/
theorem step_next {s t : State} (h : step s = .next t) :
    (s.halted = true ∧ t = s) ∨
    (s.halted = false ∧ s.pc = 0x0000 ∧ t = { s with halted := true }) ∨
    (s.halted = false ∧ s.pc ≠ 0x0000 ∧ ∃ a u, memIndex s.cfg s.pc = some a ∧
      exec (decode (s.readIndex a)) (handlerState s a) = .next u ∧
      ((u.waiting = true ∧ t = s.dropLatch u) ∨ (u.waiting = false ∧ t = u.commit.boundary))) := by
  unfold step runOne at h
  split at h
  · exact .inl ⟨‹_›, (Host.Outcome.next.inj h).symm⟩
  · have running : s.halted = false := by simpa using ‹¬s.halted = true›
    split at h
    · refine .inr (.inl ⟨running, ‹_›, ?_⟩)
      rw [← Host.Outcome.next.inj h, State.boundary_spec, running]
      simp [*]
    · obtain ⟨a, index, h⟩ := readThen_next h
      obtain ⟨u, ran, ends⟩ := finishCycle_next h
      exact .inr (.inr ⟨running, ‹_›, a, u, index, ran, ends⟩)

end Sys2Proof.Machine
end

