-- ==== Sys2Proof/Laws/Meanings.lean ====
section
/-! SUPPORT. One lemma per meaning that accesses memory or the call stack: what `exec` answers, in
terms of the named updates, so that no later proof unfolds `exec`. -/

namespace Sys2Proof.Machine

/-! ### Loads -/

theorem exec_ld_some {s : State} {off : BitVec 9} {a : Nat}
    (h : memIndex s.cfg (pcRelative s.pc off) = some a) (dr : Reg) :
    exec (.ld dr off) s =
      .next ((s.warn (pcRelative s.pc off) a).setResult dr (s.readIndex a)) :=
  readThen_some h fun r s1 => .next (s1.setResult dr r)

theorem exec_ld_none {s : State} {off : BitVec 9}
    (h : memIndex s.cfg (pcRelative s.pc off) = none) (dr : Reg) :
    exec (.ld dr off) s = .refused (.outOfRange (pcRelative s.pc off)) :=
  readThen_none h fun r s1 => .next (s1.setResult dr r)

theorem exec_ldr_some {s : State} {base : Reg} {off : BitVec 6} {a : Nat}
    (h : memIndex s.cfg (baseOffset (s.reg base) off) = some a) (dr : Reg) :
    exec (.ldr dr base off) s =
      .next ((s.warn (baseOffset (s.reg base) off) a).setResult dr (s.readIndex a)) :=
  readThen_some h fun r s1 => .next (s1.setResult dr r)

theorem exec_ldr_none {s : State} {base : Reg} {off : BitVec 6}
    (h : memIndex s.cfg (baseOffset (s.reg base) off) = none) (dr : Reg) :
    exec (.ldr dr base off) s = .refused (.outOfRange (baseOffset (s.reg base) off)) :=
  readThen_none h fun r s1 => .next (s1.setResult dr r)

/-- LDI after its pointer read is a read through the pointer. -/
theorem exec_ldi_pointer {s : State} {off : BitVec 9} {a : Nat}
    (h : memIndex s.cfg (pcRelative s.pc off) = some a) (dr : Reg) :
    exec (.ldi dr off) s =
      readThen (s.warn (pcRelative s.pc off) a) (s.readIndex a) fun r s2 =>
        .next (s2.setResult dr r) :=
  readThen_some h fun ptr s1 => readThen s1 ptr fun r s2 => .next (s2.setResult dr r)

theorem exec_ldi_some {s : State} {off : BitVec 9} {a b : Nat}
    (h : memIndex s.cfg (pcRelative s.pc off) = some a)
    (h2 : memIndex s.cfg (s.readIndex a) = some b) (dr : Reg) :
    exec (.ldi dr off) s =
      .next (((s.warn (pcRelative s.pc off) a).warn (s.readIndex a) b).setResult dr
        (s.readIndex b)) := by
  rw [exec_ldi_pointer h, readThen_some (by simpa using h2), State.warn_readIndex]

theorem exec_ldi_none {s : State} {off : BitVec 9}
    (h : memIndex s.cfg (pcRelative s.pc off) = none) (dr : Reg) :
    exec (.ldi dr off) s = .refused (.outOfRange (pcRelative s.pc off)) :=
  readThen_none h fun ptr s1 => readThen s1 ptr fun r s2 => .next (s2.setResult dr r)

/-! ### Stores -/

theorem exec_st_some {s : State} {off : BitVec 9} {a : Nat}
    (h : memIndex s.cfg (pcRelative s.pc off) = some a) (sr : Reg) :
    exec (.st sr off) s =
      .next ((s.warn (pcRelative s.pc off) a).writeIndex a (s.reg sr)) :=
  memWrite_some h (s.reg sr)

theorem exec_st_none {s : State} {off : BitVec 9}
    (h : memIndex s.cfg (pcRelative s.pc off) = none) (sr : Reg) :
    exec (.st sr off) s = .refused (.outOfRange (pcRelative s.pc off)) :=
  memWrite_none h (s.reg sr)

theorem exec_str_some {s : State} {base : Reg} {off : BitVec 6} {a : Nat}
    (h : memIndex s.cfg (baseOffset (s.reg base) off) = some a) (sr : Reg) :
    exec (.str sr base off) s =
      .next ((s.warn (baseOffset (s.reg base) off) a).writeIndex a (s.reg sr)) :=
  memWrite_some h (s.reg sr)

theorem exec_str_none {s : State} {base : Reg} {off : BitVec 6}
    (h : memIndex s.cfg (baseOffset (s.reg base) off) = none) (sr : Reg) :
    exec (.str sr base off) s = .refused (.outOfRange (baseOffset (s.reg base) off)) :=
  memWrite_none h (s.reg sr)

/-- STI after its pointer read is a write through the pointer. -/
theorem exec_sti_pointer {s : State} {off : BitVec 9} {a : Nat}
    (h : memIndex s.cfg (pcRelative s.pc off) = some a) (sr : Reg) :
    exec (.sti sr off) s =
      memWrite (s.warn (pcRelative s.pc off) a) (s.readIndex a) (s.reg sr) :=
  readThen_some h fun ptr s1 => memWrite s1 ptr (s.reg sr)

theorem exec_sti_some {s : State} {off : BitVec 9} {a b : Nat}
    (h : memIndex s.cfg (pcRelative s.pc off) = some a)
    (h2 : memIndex s.cfg (s.readIndex a) = some b) (sr : Reg) :
    exec (.sti sr off) s =
      .next (((s.warn (pcRelative s.pc off) a).warn (s.readIndex a) b).writeIndex b
        (s.reg sr)) := by
  rw [exec_sti_pointer h, memWrite_some (by simpa using h2)]

theorem exec_sti_none {s : State} {off : BitVec 9}
    (h : memIndex s.cfg (pcRelative s.pc off) = none) (sr : Reg) :
    exec (.sti sr off) s = .refused (.outOfRange (pcRelative s.pc off)) :=
  readThen_none h fun ptr s1 => memWrite s1 ptr (s.reg sr)

/-! ### Linkage -/

theorem exec_ret (s : State) :
    exec .ret s = .next ((s.stackPop.2.setReg 7 s.stackPop.1).setPc s.stackPop.1) := rfl

theorem exec_rti (s : State) : exec .rti s = .next (s.stackPop.2.setPc s.stackPop.1) := rfl

theorem exec_jsr (off : BitVec 11) (s : State) :
    exec (.jsr off) s =
      .next (((s.stackPush s.pc).setReg 7 s.pc).setPc (pcRelative s.pc off)) := rfl

theorem exec_jsrr (base : Reg) (s : State) :
    exec (.jsrr base) s = .next (((s.stackPush s.pc).setReg 7 s.pc).setPc (s.reg base)) := rfl

end Sys2Proof.Machine
end

