-- ==== Sys2Proof/Laws/Claims.lean ====
section
/-! SUPPORT. The claims' terms (Safety.lean) in terms of the machine's operations. -/

namespace Sys2Proof.Machine

theorem loaded_eq_readIndex (s : State) (a : Nat) : loaded s a = s.readIndex a := rfl

theorem warn_eq_warnings (s : State) (addr : Word) (a : Nat) :
    s.warn addr a = { s with reports := s.reports ++ warnings s addr a } := by
  rw [State.warn_spec]
  simp [warnings, State.unsafeIndex]

theorem lowByte_eq_setWidth (w : Word) : lowByte w = w.setWidth 8 := by
  apply BitVec.eq_of_toNat_eq
  simp [lowByte]

theorem highByte_eq_slice (w : Word) : highByte w = BitVec.ofNat 8 (slice w 15 8) := by
  apply BitVec.eq_of_toNat_eq
  simp [highByte, slice, Nat.shiftRight_eq_div_pow]

/-- The model's CR test, in the claims' terms. -/
theorem crBytes_eq (translate : Bool) (b : Byte) :
    (if translate && b == 0x0D then [b, 0x0A] else [b]) = crBytes translate b := by
  have cr : (b == 0x0D) = decide (b.toNat = 0x0D) := by
    rw [Bool.eq_iff_iff]
    simp [← BitVec.toNat_inj]
  rw [crBytes, cr]
  cases translate <;> simp

/-- The handler's start state, in the claims' terms. -/
theorem handlerState_eq (s : State) (a : Nat) :
    handlerState s a =
      { s with
        ir := loaded s a, pc := s.pc + 1, waiting := false
        reports := if s.waiting then s.reports else s.reports ++ warnings s s.pc a } := by
  rw [handlerState_spec]
  cases s.waiting <;> simp [warnings, State.unsafeIndex, loaded_eq_readIndex]

/-- A step of a machine that fetches is a cycle of the fetched word's instruction. -/
theorem step_of_fetch {s : State} {a : Nat} (running : s.halted = false) (pc : s.pc ≠ 0x0000)
    (index : memIndex s.cfg s.pc = some a) :
    step s = finishCycle s (exec (decode (loaded s a)) (handlerState s a)) := by
  unfold step runOne
  rw [running, if_neg (by decide), if_neg pc, cycle_some index, loaded_eq_readIndex]

end Sys2Proof.Machine
end

