-- ==== Sys2Proof/Laws/Effects.lean ====
section
/-! SUPPORT. What any instruction can do to the machine, said once over the shared operations: a proof
about every instruction cites `Effect.of_exec` and unfolds no meaning. -/

namespace Sys2Proof.Machine

/-- The cursor lies in its range (10_state.md R25). -/
def CursorInRange (s : State) : Prop := s.cfg.stackLimit ≤ s.spc ∧ s.spc ≤ s.cfg.stackTop

/-- What every handler does at most: it leaves the engine's state alone, consumes input in order, only
adds to the output and the reports, keeps the memory's form and the cursor's range, and leaves the flags
or sets them from a result. -/
structure Effect (s t : State) : Prop where
  engine : SameEngine s t
  input : t.inputConsumed ++ t.inputPending = s.inputConsumed ++ s.inputPending
  consumed : s.inputConsumed <+: t.inputConsumed
  waits : t.waiting = true → s.waiting = true ∨ t.inputPending = []
  output : s.consoleOut <+: t.consoleOut
  reports : s.reports <+: t.reports
  stored : s.cfg.wf = true → Memory.wf s.mem = true → CursorInRange s →
    Memory.wf t.mem = true ∧ CursorInRange t
  flags : SameFlags s t ∨ ∃ v, FlagsFrom v t

theorem getLsbD_fifteen (v : Word) : v.getLsbD 15 = decide (0x8000 ≤ v.toNat) := by
  rw [show v.getLsbD 15 = v.msb by simp [BitVec.msb_eq_getLsbD_last], BitVec.msb_eq_decide]

theorem flagsFrom_setcc (s : State) (v : Word) : FlagsFrom v (s.setcc v) := by
  have zero : v = 0x0000 ↔ v.toNat = 0 := by simp [← BitVec.toNat_inj]
  refine ⟨?_, ?_, ?_⟩
  · simp only [State.setcc, getLsbD_fifteen, decide_eq_true_eq]
  · simp [State.setcc, ← zero]
  · simp only [State.setcc, getLsbD_fifteen, Bool.and_eq_true, Bool.not_eq_true',
      decide_eq_false_iff_not, bne_iff_ne, ne_eq, zero]
    omega

theorem Effect.refl (s : State) : Effect s s :=
  ⟨⟨rfl, rfl, rfl, rfl, rfl⟩, rfl, List.prefix_refl _, .inl, List.prefix_refl _,
    List.prefix_refl _, fun _ m c => ⟨m, c⟩,
    .inl ⟨rfl, rfl, rfl⟩⟩

theorem Effect.trans {s t u : State} (a : Effect s t) (b : Effect t u) : Effect s u := by
  obtain ⟨ec, ei, eh, en, ef⟩ := a.engine
  obtain ⟨fc, fi, fh, fn, ff⟩ := b.engine
  refine ⟨⟨fc.trans ec, fi.trans ei, fh.trans eh, fn.trans en, ff.trans ef⟩, b.input.trans a.input,
    a.consumed.trans b.consumed, fun wait => ?_, a.output.trans b.output,
    a.reports.trans b.reports, fun w m c => ?_, ?_⟩
  · obtain wait | empty := b.waits wait
    · refine (a.waits wait).imp_right fun empty => ?_
      obtain ⟨more, consumed⟩ := b.consumed
      have := b.input
      rw [← consumed, empty, List.append_assoc, List.append_cancel_left_eq, List.append_eq_nil_iff] at this
      exact this.2
    · exact .inr empty
  · exact b.stored (ec ▸ w) (a.stored w m c).1 (a.stored w m c).2
  · obtain ⟨n, z, p⟩ | set := b.flags
    · obtain ⟨n', z', p'⟩ | ⟨v, set⟩ := a.flags
      · exact .inl ⟨n.trans n', z.trans z', p.trans p'⟩
      · exact .inr ⟨v, by unfold FlagsFrom; rw [n, z, p]; exact set⟩
    · exact .inr set

theorem Effect.warn (s : State) (addr : Word) (a : Nat) : Effect s (s.warn addr a) := by
  rw [State.warn_spec]
  exact { Effect.refl s with reports := List.prefix_append _ _ }

theorem Effect.setReg (s : State) (r : Reg) (v : Word) : Effect s (s.setReg r v) :=
  { Effect.refl s with }

theorem Effect.setPc (s : State) (v : Word) : Effect s (s.setPc v) := { Effect.refl s with }

theorem Effect.setResult (s : State) (r : Reg) (v : Word) : Effect s (s.setResult r v) :=
  { Effect.refl s with flags := .inr ⟨v, flagsFrom_setcc _ v⟩ }

theorem Effect.writeIndex (s : State) {a : Nat} (inside : a < memWords) (v : Word) :
    Effect s (s.writeIndex a v) := by
  obtain ⟨_, e⟩ | ⟨_, _, e⟩ | ⟨_, _, e⟩ := State.writeIndex_spec s a v <;> rw [e]
  · exact { Effect.refl s with output := List.prefix_append _ _ }
  · exact Effect.refl s
  · exact { Effect.refl s with stored := fun _ m c => ⟨Memory.wf_write m v inside, c⟩ }

theorem Config.wf_stack {c : Config} (h : c.wf = true) :
    0 < c.stackCapacity ∧ c.stackCapacity ≤ c.stackTop ∧ c.stackTop ≤ memWords := by
  simp only [Config.wf, Bool.and_eq_true, decide_eq_true_eq] at h
  exact ⟨h.1.1.1, h.1.1.2.1, h.1.1.2.2.1⟩

theorem Effect.stackPush (s : State) (v : Word) : Effect s (s.stackPush v) := by
  by_cases full : s.spc ≤ s.cfg.stackLimit
  · rw [State.stackPush_full full]
    exact { Effect.refl s with reports := List.prefix_append _ _ }
  · have room := Nat.not_le.1 full
    rw [State.stackPush_room room]
    refine { Effect.refl s with stored := fun w m c => ?_ }
    obtain ⟨_, _, top⟩ := Config.wf_stack w
    have := c.2
    refine ⟨Memory.wf_write m _ (show s.spc - 1 < memWords by simp only [memWords] at top ⊢; omega),
      show s.cfg.stackLimit ≤ s.spc - 1 by omega, show s.spc - 1 ≤ s.cfg.stackTop by omega⟩

theorem Effect.stackPop (s : State) : Effect s s.stackPop.2 := by
  by_cases empty : s.spc = s.cfg.stackTop
  · rw [State.stackPop_empty empty]
    exact { Effect.refl s with reports := List.prefix_append _ _ }
  · rw [State.stackPop_entry empty]
    refine { Effect.refl s with stored := fun _ m c => ⟨m, ?_⟩ }
    obtain ⟨low, high⟩ := c
    exact ⟨show s.cfg.stackLimit ≤ s.spc + 1 by omega, show s.spc + 1 ≤ s.cfg.stackTop by omega⟩

theorem Effect.charInput {s t : State} (h : charInput s = .next t) : Effect s t := by
  obtain ⟨_, e⟩ | ⟨c, rest, pending, ⟨_, e⟩ | ⟨_, e⟩⟩ := charInput_spec s <;> rw [e] at h <;> cases h
  · exact { Effect.refl s with waits := fun _ => .inr ‹_› }
  · exact Effect.trans (t := s.consume c rest)
      { Effect.refl s with
        input := by simp [pending], consumed := List.prefix_append _ _, waits := nofun }
      (Effect.setReg _ _ _)

theorem Effect.charOutput {s t : State} (h : charOutput s = .next t) : Effect s t := by
  rw [Machine.charOutput, State.consolePutCr_spec] at h
  cases h
  exact { Effect.refl s with output := List.prefix_append _ _ }

theorem Effect.putString {s t : State} (h : putString s = .next t) : Effect s t := by
  obtain ⟨out, reports, e⟩ | ⟨_, _, e⟩ := putString_spec s <;> rw [e] at h <;> cases h
  exact { Effect.refl s with output := List.prefix_append _ _, reports := List.prefix_append _ _ }

theorem Effect.putPackedString {s t : State} (h : putPackedString s = .next t) : Effect s t := by
  obtain ⟨out, reports, e⟩ | ⟨_, _, e⟩ := putPackedString_spec s <;> rw [e] at h <;> cases h
  exact { Effect.refl s with output := List.prefix_append _ _, reports := List.prefix_append _ _ }

theorem Effect.memWrite {s t : State} {addr v : Word} (h : memWrite s addr v = .next t) :
    Effect s t := by
  obtain ⟨a, index, rfl⟩ := memWrite_next h
  exact (Effect.warn _ _ _).trans (Effect.writeIndex _ (memIndex_lt index) v)

theorem Effect.returnJump {s t : State} (h : returnJump s = .next t) : Effect s t := by
  cases h
  exact (Effect.stackPop _).trans ((Effect.setReg _ _ _).trans (Effect.setPc _ _))

theorem Effect.callTo {s t : State} {target : Word} (h : callTo s target = .next t) :
    Effect s t := by
  cases h
  exact (Effect.stackPush _ _).trans ((Effect.setReg _ _ _).trans (Effect.setPc _ _))

/-- The dispatch of an ill-formed TRAP term goes to the services; every other vector does nothing. -/
theorem Effect.execTrap {s t : State} {vec : BitVec 8} (h : execTrap vec s = .next t) :
    Effect s t := by
  unfold Machine.execTrap at h
  repeat' split at h
  · exact Effect.charInput h
  · exact Effect.charOutput h
  · exact Effect.putString h
  · exact Effect.charInput h
  · exact Effect.putPackedString h
  · cases h; exact Effect.setPc _ _
  · cases h; exact Effect.refl _

/-- What an instruction that answers a next state has done at most. -/
theorem Effect.of_exec {i : Instr} {s t : State} (h : exec i s = .next t) : Effect s t := by
  cases i with
  | br n z p off =>
    simp only [exec, execBr] at h
    cases h
    split
    · exact Effect.setPc _ _
    · exact Effect.refl _
  | addReg | addImm | andReg | andImm | notReg => cases h; exact Effect.setResult _ _ _
  | lea => cases h; exact Effect.setReg _ _ _
  | ld dr off =>
    simp only [exec, execLd] at h
    obtain ⟨a, _, h⟩ := readThen_next h
    cases h
    exact (Effect.warn _ _ _).trans (Effect.setResult _ _ _)
  | ldr dr base off =>
    simp only [exec, execLdr] at h
    obtain ⟨a, _, h⟩ := readThen_next h
    cases h
    exact (Effect.warn _ _ _).trans (Effect.setResult _ _ _)
  | ldi dr off =>
    simp only [exec, execLdi] at h
    obtain ⟨a, _, h⟩ := readThen_next h
    obtain ⟨b, _, h⟩ := readThen_next h
    cases h
    exact (Effect.warn _ _ _).trans ((Effect.warn _ _ _).trans (Effect.setResult _ _ _))
  | st | str => exact Effect.memWrite h
  | sti sr off =>
    simp only [exec, execSti] at h
    obtain ⟨a, _, h⟩ := readThen_next h
    exact (Effect.warn _ _ _).trans (Effect.memWrite h)
  | jsr | jsrr => exact Effect.callTo h
  | ret => exact Effect.returnJump h
  | rti => cases h; exact (Effect.stackPop _).trans (Effect.setPc _ _)
  | jmp base =>
    simp only [exec, execJmp] at h
    split at h
    · exact Effect.returnJump h
    · cases h; exact Effect.setPc _ _
  | unassigned => cases h; exact Effect.refl _
  | trap => exact Effect.execTrap h
  | getc | inChar => exact Effect.charInput h
  | out => exact Effect.charOutput h
  | puts => exact Effect.putString h
  | putsp => exact Effect.putPackedString h
  | halt => cases h; exact Effect.setPc _ _

/-- What the fetch has done when the handler runs, but for IR. -/
theorem Effect.handlerState (s : State) (a : Nat) : Effect s { handlerState s a with ir := s.ir } := by
  rw [handlerState_spec]
  exact { Effect.refl s with reports := List.prefix_append _ _, waits := nofun }

end Sys2Proof.Machine
end

