-- ==== Sys2Proof/Laws/HostOps.lean ====
section
/-! SUPPORT. What the host's operations can do, said once: the loader's stores, the guards on the
host's turn, and one turn of the run driver's loop. -/

namespace Sys2Proof.Machine

/-! ### Loading -/

/-- Storing an image's words changes the memory only. -/
theorem State.storeWords_spec (s : State) (base : Nat) (ws : List Word) :
    s.storeWords base ws = { s with mem := (s.storeWords base ws).mem } := by
  induction ws generalizing s base with
  | nil => rfl
  | cons w rest ih => exact ih (s.setWord base w) (base + 1)

theorem State.storeWords_wf {s : State} {base : Nat} {ws : List Word} (wf : Memory.wf s.mem = true)
    (fits : base + ws.length ≤ memWords) : Memory.wf (s.storeWords base ws).mem = true := by
  induction ws generalizing s base with
  | nil => exact wf
  | cons w rest ih =>
    simp only [List.length_cons] at fits
    exact ih (s := s.setWord base w) (Memory.wf_write wf w (by omega)) (by omega)

theorem State.storeWords_outside (s : State) {base a : Nat} {ws : List Word}
    (outside : a < base ∨ base + ws.length ≤ a) : (s.storeWords base ws).word a = s.word a := by
  induction ws generalizing s base with
  | nil => rfl
  | cons w rest ih =>
    simp only [List.length_cons] at outside
    exact (ih (s.setWord base w) (by omega)).trans (State.word_setWord_ne s w (by omega))

theorem State.storeWords_inside {s : State} {base : Nat} {ws : List Word}
    (wf : Memory.wf s.mem = true) (fits : base + ws.length ≤ memWords) (k : Nat)
    (inside : k < ws.length) : (s.storeWords base ws).word (base + k) = ws[k] := by
  induction ws generalizing s base k with
  | nil => cases inside
  | cons w rest ih =>
    simp only [List.length_cons] at fits inside
    cases k with
    | zero =>
      exact (State.storeWords_outside (s.setWord base w) (.inl (by omega))).trans
        (State.word_setWord_same wf base w)
    | succ k =>
      have := ih (s := s.setWord base w) (base := base + 1) (Memory.wf_write wf w (by omega))
        (by omega) k (by omega)
      simpa [State.storeWords, Nat.add_assoc, Nat.add_comm 1] using this

/-- A load that answers a next state came before the first cycle, its image fits, and it stores the
words and notes the base. -/
theorem load_next {image : Option (List Word)} {s t : State} (h : load image s = .next t) :
    s.beforeFirstCycle = true ∧ ∃ base ws, image = some (base :: ws) ∧
      base.toNat + ws.length ≤ memWords ∧
      t = (s.storeWords base.toNat ws).noteLoadBase base.toNat := by
  unfold load at h
  split at h
  · split at h
    · cases h
    · cases h
    · split at h
      · cases h
      · exact ⟨‹_›, _, _, rfl, Nat.not_lt.1 ‹_›, (Host.Outcome.next.inj h).symm⟩
  · cases h

theorem setEntry_next {entry : Word} {s t : State} (h : setEntry entry s = .next t) :
    s.beforeFirstCycle = true ∧ t = s.setPc entry := by
  unfold setEntry at h
  split at h
  · exact ⟨‹_›, (Host.Outcome.next.inj h).symm⟩
  · cases h

/-- What it takes to come before the first cycle. -/
theorem State.beforeFirstCycle_iff (s : State) :
    s.beforeFirstCycle = true ↔ s.waiting = false ∧ s.halted = false ∧ s.counter = 0 := by
  simp [State.beforeFirstCycle, and_assoc]

/-! ### The run driver -/

theorem runFor_of_waiting {s : State} (wait : s.waiting = true) (n : Nat) :
    runFor n s = .refused .hostOutOfTurn := if_pos wait

theorem runFor_of_not_waiting {s : State} (free : s.waiting = false) (n : Nat) :
    runFor n s = runLoop n s.boundary := by rw [runFor, free]; rfl

theorem runLoop_halted {s : State} (halted : s.halted = true) (n : Nat) :
    runLoop n s = .ready s := by
  cases n
  · rfl
  · rw [runLoop, if_pos halted]

/-- One turn of the loop in a machine that runs: a wait blocks the run with its count as it is, a whole
cycle takes one off. -/
theorem runLoop_running {s : State} (running : s.halted = false) (pc : s.pc ≠ 0x0000) (n : Nat) :
    runLoop (n + 1) s =
      match step s with
      | .next t => if t.waiting then .blocked t (some (n + 1)) else runLoop n t
      | .fault f => .terminated f s
      | .refused q => .refused q := by
  have cycles : step s = cycle s := by
    unfold step runOne
    rw [running, if_neg (by decide), if_neg pc]
  rw [runLoop, if_neg (by simp [running]), cycles]
  cases cycle s <;> rfl

/-- After a step the machine is not at PC = 0x0000 unless it is halted. -/
theorem pc_of_step {s t : State} (h : step s = .next t) (running : t.halted = false) :
    t.pc ≠ 0x0000 := by
  obtain ⟨halted, rfl⟩ | ⟨_, _, rfl⟩ | ⟨_, pc, a, u, _, _, ⟨_, rfl⟩ | ⟨_, rfl⟩⟩ := step_next h
  · simp [halted] at running
  · cases running
  · exact pc
  · rw [State.boundary_spec] at running ⊢
    simp only [Bool.or_eq_false_iff, decide_eq_false_iff_not] at running
    exact running.2

/-- A step waits only where no character is at hand. -/
theorem inputPending_of_step_waits {s t : State} (h : step s = .next t) (running : s.halted = false)
    (pc : s.pc ≠ 0x0000) (wait : t.waiting = true) : t.inputPending = [] := by
  obtain ⟨halted, _⟩ | ⟨_, zero, _⟩ | ⟨_, _, a, u, _, ran, ⟨wait', rfl⟩ | ⟨free, rfl⟩⟩ := step_next h
  · simp [halted] at running
  · exact (pc zero).elim
  · exact ((Effect.of_exec ran).waits wait').resolve_left (by simp)
  · rw [State.boundary_spec] at wait
    exact absurd (show u.waiting = true from wait) (by simp [free])

end Sys2Proof.Machine
end

