-- ==== Sys2Proof/Laws/PerInstr.lean ====
section
/-! SUPPORT. A statement about every instruction, one lemma per constructor: its row is a row of the
opcode table (30_encoding.md R65), and its canonical word has the row's fixed bits. -/

namespace Sys2Proof.Laws

/-! ### The fixed bits of the formats (R61) -/

theorem wordPc9_opcode (op : BitVec 4) (r : Reg) (off : BitVec 9) :
    wordPc9 op r off &&& 0xF000 = op ++ 0#12 := by
  rw [wordPc9, show (0xF000 : Word) = 0xF#4 ++ 0#3 ++ 0#9 by decide, BitVec.and_append,
    BitVec.and_append, show op ++ 0#12 = op ++ 0#3 ++ 0#9 by revert op; decide]
  simp [show op &&& 0xF#4 = op by revert op; decide]

theorem wordBase6_opcode (op : BitVec 4) (r base : Reg) (low : BitVec 6) :
    wordBase6 op r base low &&& 0xF000 = op ++ 0#12 := by
  rw [wordBase6, show (0xF000 : Word) = 0xF#4 ++ 0#3 ++ 0#3 ++ 0#6 by decide, BitVec.and_append,
    BitVec.and_append, BitVec.and_append,
    show op ++ 0#12 = op ++ 0#3 ++ 0#3 ++ 0#6 by revert op; decide]
  simp [show op &&& 0xF#4 = op by revert op; decide]

theorem wordBase6_select (op : BitVec 4) (r base : Reg) (low : BitVec 6) :
    wordBase6 op r base low &&& 0xF020 = op ++ 0#6 ++ (low &&& 0x20) := by
  rw [wordBase6, show (0xF020 : Word) = 0xF#4 ++ 0#3 ++ 0#3 ++ 0x20#6 by decide, BitVec.and_append,
    BitVec.and_append, BitVec.and_append,
    show op ++ 0#6 = op ++ 0#3 ++ 0#3 by revert op; decide]
  simp [show op &&& 0xF#4 = op by revert op; decide]

theorem wordTrap_opcode (v : BitVec 8) : wordTrap v &&& 0xF000 = 0xF000 := by
  rw [wordTrap, show (0xF000 : Word) = 0xF#4 ++ 0#4 ++ 0#8 by decide, BitVec.and_append]
  simp

theorem select_register (r : Reg) : (0#3 ++ Reg.field r) &&& 0x20 = 0#6 := by revert r; decide

theorem select_immediate (imm : BitVec 5) : (1#1 ++ imm) &&& 0x20 = 0x20#6 := by
  revert imm; decide

theorem takes_of_masked {r : OpRow} {w : Word} (none : r.excluded = none)
    (masked : w &&& r.mask = r.pat) : r.takes w = true := by
  simp [OpRow.takes, none, masked]

/-! ### The family -/

/-- The row stands in the table and takes the canonical word of the instruction. -/
def EncodedInItsRow.Statement (i : Instr) : Prop :=
  i.coreRow ∈ coreRows ∧ (i.wf = true → i.coreRow.takes (encode i) = true)

theorem EncodedInItsRow.br (n z p : Bool) (off : BitVec 9) : EncodedInItsRow.Statement (.br n z p off) :=
  ⟨by simp only [Instr.coreRow]; decide, fun _ => takes_of_masked rfl (by
    rw [encode, Instr.coreRow, show (0xF000 : Word) = 0xF#4 ++ 0#1 ++ 0#1 ++ 0#1 ++ 0#9 by decide,
      BitVec.and_append, BitVec.and_append, BitVec.and_append, BitVec.and_append]
    simp only [BitVec.and_zero]
    decide)⟩

theorem EncodedInItsRow.addReg (dr sr1 sr2 : Reg) : EncodedInItsRow.Statement (.addReg dr sr1 sr2) :=
  ⟨by simp only [Instr.coreRow]; decide, fun _ =>
    takes_of_masked rfl ((wordBase6_select 1 dr sr1 _).trans (by rw [select_register]; rfl))⟩

theorem EncodedInItsRow.addImm (dr sr1 : Reg) (imm : BitVec 5) : EncodedInItsRow.Statement (.addImm dr sr1 imm) :=
  ⟨by simp only [Instr.coreRow]; decide, fun _ =>
    takes_of_masked rfl ((wordBase6_select 1 dr sr1 _).trans (by rw [select_immediate]; rfl))⟩

theorem EncodedInItsRow.ld (dr : Reg) (off : BitVec 9) : EncodedInItsRow.Statement (.ld dr off) :=
  ⟨by simp only [Instr.coreRow]; decide, fun _ =>
    takes_of_masked rfl (wordPc9_opcode 2 dr off)⟩

theorem EncodedInItsRow.st (sr : Reg) (off : BitVec 9) : EncodedInItsRow.Statement (.st sr off) :=
  ⟨by simp only [Instr.coreRow]; decide, fun _ =>
    takes_of_masked rfl (wordPc9_opcode 3 sr off)⟩

theorem EncodedInItsRow.jsrr (base : Reg) : EncodedInItsRow.Statement (.jsrr base) :=
  ⟨by simp only [Instr.coreRow]; decide, fun _ =>
    takes_of_masked rfl (by revert base; decide)⟩

theorem EncodedInItsRow.jsr (off : BitVec 11) : EncodedInItsRow.Statement (.jsr off) :=
  ⟨by simp only [Instr.coreRow]; decide, fun _ => takes_of_masked rfl (by
    rw [encode, Instr.coreRow, show (0xF800 : Word) = 0xF#4 ++ 1#1 ++ 0#11 by decide,
      BitVec.and_append]
    simp only [BitVec.and_zero]
    decide)⟩

theorem EncodedInItsRow.andReg (dr sr1 sr2 : Reg) : EncodedInItsRow.Statement (.andReg dr sr1 sr2) :=
  ⟨by simp only [Instr.coreRow]; decide, fun _ =>
    takes_of_masked rfl ((wordBase6_select 5 dr sr1 _).trans (by rw [select_register]; rfl))⟩

theorem EncodedInItsRow.andImm (dr sr1 : Reg) (imm : BitVec 5) : EncodedInItsRow.Statement (.andImm dr sr1 imm) :=
  ⟨by simp only [Instr.coreRow]; decide, fun _ =>
    takes_of_masked rfl ((wordBase6_select 5 dr sr1 _).trans (by rw [select_immediate]; rfl))⟩

theorem EncodedInItsRow.ldr (dr base : Reg) (off : BitVec 6) : EncodedInItsRow.Statement (.ldr dr base off) :=
  ⟨by simp only [Instr.coreRow]; decide, fun _ =>
    takes_of_masked rfl (wordBase6_opcode 6 dr base off)⟩

theorem EncodedInItsRow.str (sr base : Reg) (off : BitVec 6) : EncodedInItsRow.Statement (.str sr base off) :=
  ⟨by simp only [Instr.coreRow]; decide, fun _ =>
    takes_of_masked rfl (wordBase6_opcode 7 sr base off)⟩

theorem EncodedInItsRow.rti : EncodedInItsRow.Statement (.rti) :=
  ⟨by decide, by decide⟩

theorem EncodedInItsRow.notReg (dr sr : Reg) : EncodedInItsRow.Statement (.notReg dr sr) :=
  ⟨by simp only [Instr.coreRow]; decide, fun _ =>
    takes_of_masked rfl (wordBase6_opcode 9 dr sr 0x3F)⟩

theorem EncodedInItsRow.ldi (dr : Reg) (off : BitVec 9) : EncodedInItsRow.Statement (.ldi dr off) :=
  ⟨by simp only [Instr.coreRow]; decide, fun _ =>
    takes_of_masked rfl (wordPc9_opcode 10 dr off)⟩

theorem EncodedInItsRow.sti (sr : Reg) (off : BitVec 9) : EncodedInItsRow.Statement (.sti sr off) :=
  ⟨by simp only [Instr.coreRow]; decide, fun _ =>
    takes_of_masked rfl (wordPc9_opcode 11 sr off)⟩

theorem EncodedInItsRow.ret : EncodedInItsRow.Statement (.ret) :=
  ⟨by decide, by decide⟩

theorem EncodedInItsRow.jmp (base : Reg) : EncodedInItsRow.Statement (.jmp base) :=
  ⟨by simp only [Instr.coreRow]; decide, by revert base; decide⟩

theorem EncodedInItsRow.unassigned : EncodedInItsRow.Statement (.unassigned) :=
  ⟨by decide, by decide⟩

theorem EncodedInItsRow.lea (dr : Reg) (off : BitVec 9) : EncodedInItsRow.Statement (.lea dr off) :=
  ⟨by simp only [Instr.coreRow]; decide, fun _ =>
    takes_of_masked rfl (wordPc9_opcode 14 dr off)⟩

theorem EncodedInItsRow.trap (vec : BitVec 8) : EncodedInItsRow.Statement (.trap vec) :=
  ⟨by simp only [Instr.coreRow]; decide, fun _ => takes_of_masked rfl (wordTrap_opcode vec)⟩

theorem EncodedInItsRow.getc : EncodedInItsRow.Statement (.getc) :=
  ⟨by decide, by decide⟩

theorem EncodedInItsRow.out : EncodedInItsRow.Statement (.out) :=
  ⟨by decide, by decide⟩

theorem EncodedInItsRow.puts : EncodedInItsRow.Statement (.puts) :=
  ⟨by decide, by decide⟩

theorem EncodedInItsRow.inChar : EncodedInItsRow.Statement (.inChar) :=
  ⟨by decide, by decide⟩

theorem EncodedInItsRow.putsp : EncodedInItsRow.Statement (.putsp) :=
  ⟨by decide, by decide⟩

theorem EncodedInItsRow.halt : EncodedInItsRow.Statement (.halt) :=
  ⟨by decide, by decide⟩

end Sys2Proof.Laws
end

