-- ==== Sys2Proof/Tests/Slice0.lean ====
section
/-! SUPPORT. Tests of the model against words and results written out by hand from the spec: E and V
numbers are those of 95_test_vectors.md; every other expected value is computed from the rule named.
Then, for each statement with hypotheses, states and operands that meet them, at the boundaries of
their ranges. -/

namespace Sys2Proof.Tests

open Sys2Proof.Machine

/-! ### Well-formedness: what no word stands for is refused -/

theorem test_wf_refuses_jmp_r7 : (Instr.jmp 7).wf = false := by decide

theorem test_wf_refuses_trap_of_a_service :
    serviceVectors.all (fun v => !(Instr.trap v).wf) = true := by decide

theorem test_wf_takes_trap_beside_the_services :
    (Instr.trap 0x1F).wf = true ∧ (Instr.trap 0x26).wf = true := by decide

/-! ### Decoding: words written out from the encodings of R61, one per constructor -/

/-- BRnp #5 (V53). -/
theorem test_decode_br : decode 0b0000_101_000000101 = .br true false true 5 := by decide

/-- ADD R0, R1, R2 with ignored bits set (V5). -/
theorem test_decode_add_reg : decode 0b0001_000_001_0_11_010 = .addReg 0 1 2 := by decide

/-- ADD R0, R1, #-3 (E5, V6). -/
theorem test_decode_add_imm : decode 0b0001_000_001_1_11101 = .addImm 0 1 0b11101 := by decide

/-- LD R2, #-256 (V22). -/
theorem test_decode_ld : decode 0b0010_010_100000000 = .ld 2 0x100 := by decide

/-- ST R1, #-1 (V37). -/
theorem test_decode_st : decode 0b0011_001_111111111 = .st 1 0x1FF := by decide

/-- JSRR R3 with ignored bits set (V66). -/
theorem test_decode_jsrr : decode 0b0100_0_11_011_111111 = .jsrr 3 := by decide

/-- JSR #-1024 (V61). -/
theorem test_decode_jsr : decode 0b0100_1_10000000000 = .jsr 0x400 := by decide

/-- AND R1, R1, R1 (V12). -/
theorem test_decode_and_reg : decode 0b0101_001_001_0_00_001 = .andReg 1 1 1 := by decide

/-- AND R0, R1, #-16 (V14). -/
theorem test_decode_and_imm : decode 0b0101_000_001_1_10000 = .andImm 0 1 0b10000 := by decide

/-- LDR R4, R5, #-1 (V29). -/
theorem test_decode_ldr : decode 0b0110_100_101_111111 = .ldr 4 5 0x3F := by decide

/-- STR R2, R3, #4 (V42). -/
theorem test_decode_str : decode 0b0111_010_011_000100 = .str 2 3 4 := by decide

/-- RTI with ignored bits set (R61). -/
theorem test_decode_rti : decode 0b1000_101010101010 = .rti := by decide

/-- NOT R0, R1 with ignored bits clear (V19). -/
theorem test_decode_not : decode 0b1001_000_001_000000 = .notReg 0 1 := by decide

/-- LDI R3, #-2 (V26). -/
theorem test_decode_ldi : decode 0b1010_011_111111110 = .ldi 3 0x1FE := by decide

/-- STI R1, #1 (V38). -/
theorem test_decode_sti : decode 0b1011_001_000000001 = .sti 1 1 := by decide

/-- RET with ignored bits set (V59). -/
theorem test_decode_ret : decode 0b1100_111_111_111111 = .ret := by decide

/-- JMP R2 with ignored bits set (V56). -/
theorem test_decode_jmp : decode 0b1100_111_010_111111 = .jmp 2 := by decide

/-- Opcode 1101 (V90). -/
theorem test_decode_unassigned : decode 0b1101_000100100011 = .unassigned := by decide

/-- LEA R0, #-256 (V34). -/
theorem test_decode_lea : decode 0b1110_000_100000000 = .lea 0 0x100 := by decide

/-- TRAP x26, no service (V86). -/
theorem test_decode_trap : decode 0b1111_0000_00100110 = .trap 0x26 := by decide

/-- GETC (V69). -/
theorem test_decode_getc : decode 0b1111_0000_00100000 = .getc := by decide

/-- OUT with ignored bits set (V89). -/
theorem test_decode_out : decode 0b1111_1010_00100001 = .out := by decide

/-- PUTS (V76). -/
theorem test_decode_puts : decode 0b1111_0000_00100010 = .puts := by decide

/-- IN (V71). -/
theorem test_decode_in : decode 0b1111_0000_00100011 = .inChar := by decide

/-- PUTSP (V82). -/
theorem test_decode_putsp : decode 0b1111_0000_00100100 = .putsp := by decide

/-- HALT with ignored bits set (V88). -/
theorem test_decode_halt : decode 0b1111_1111_00100101 = .halt := by decide

theorem test_decodeTableWord : decodeTableWord 16 0xF025 = some .halt := by decide

/-! ### One step -/

/-- The start state of the single-instruction vectors of 95_test_vectors.md: reset, entry 0x3000, the
word there. -/
def start (w : Word) : State := ({ State.reset with pc := 0x3000 } : State).setWord 0x3000 w

/-- What one step shows of the next state; none where there is no next state. -/
def shows {α : Type} (s : State) (look : State → α) : Option α :=
  match step s with
  | .next t => some (look t)
  | .fault _ => none
  | .refused _ => none

/-- The fault a result ends in; none where it goes on or is refused. -/
def faultOf (r : Result) : Option Fault :=
  match r with
  | .next _ => none
  | .fault f => some f
  | .refused _ => none

/-- The refusal a result ends in. -/
def refusalOf (r : Result) : Option Refusal :=
  match r with
  | .next _ => none
  | .fault _ => none
  | .refused q => some q

/-- The flags as the vectors write them, N Z P. -/
def nzp (t : State) : List Bool := [t.n, t.z, t.p]

/-- V3. -/
theorem test_step_add_reg_wraps :
    shows (((start 0x1042).setReg 1 0xFFFF).setReg 2 1) (fun t => (t.reg 0, t.pc, nzp t)) = some (0x0000, 0x3001, [false, true, false]) := by decide

/-- V4. -/
theorem test_step_add_reg_same_register :
    shows ((start 0x16C3).setReg 3 0x4001) (fun t => (t.reg 3, t.pc, nzp t)) = some (0x8002, 0x3001, [true, false, false]) := by decide

/-- E5, V6. -/
theorem test_step_add_imm_negative :
    shows ((start 0x107D).setReg 1 5) (fun t => (t.reg 0, t.pc, nzp t)) = some (0x0002, 0x3001, [false, false, true]) := by decide

/-- V8. -/
theorem test_step_add_imm_overflow :
    shows ((start 0x106F).setReg 1 0x7FF1) (fun t => (t.reg 0, t.pc, nzp t)) = some (0x8000, 0x3001, [true, false, false]) := by decide

/-- V11. -/
theorem test_step_and_reg :
    shows (((start 0x5042).setReg 1 0x00F0).setReg 2 0x0F30) (fun t => (t.reg 0, t.pc, nzp t)) = some (0x0030, 0x3001, [false, false, true]) := by decide

/-- V14. -/
theorem test_step_and_imm :
    shows ((start 0x5070).setReg 1 0xFFFF) (fun t => (t.reg 0, t.pc, nzp t)) = some (0xFFF0, 0x3001, [true, false, false]) := by decide

/-- V16. -/
theorem test_step_not :
    shows ((start 0x907F).setReg 1 0x00FF) (fun t => (t.reg 0, t.pc, nzp t)) = some (0xFF00, 0x3001, [true, false, false]) := by decide

/-- V22. -/
theorem test_step_ld_reports_an_unsafe_address :
    shows ((start 0x2500).setWord 0x2F01 0x7FFF) (fun t => (t.reg 2, t.pc, nzp t, t.reports)) = some (0x7FFF, 0x3001, [false, false, true], [.memWarning 0x2F01]) := by decide

/-- V24. -/
theorem test_step_ld_of_an_aliased_address :
    shows ((({ State.reset with pc := 0x7FFF } : State).setWord 0x7FFF 0x2001).setWord 1 0x42) (fun t => (t.reg 0, t.pc, nzp t, t.reports)) = some (0x0042, 0x8000, [false, false, true], [.memWarning 0x7FFF, .memWarning 0x8001]) := by decide

/-- V27. -/
theorem test_step_ldi_through_an_aliased_pointer :
    shows (((start 0xA600).setWord 0x3001 0x8005).setWord 5 0xAB) (fun t => (t.reg 3, t.pc, nzp t, t.reports)) = some (0x00AB, 0x3001, [false, false, true], [.memWarning 0x8005]) := by decide

/-- V28. -/
theorem test_step_ldi_reads_the_status_word :
    shows (((start 0xA600).setWord 0x3001 0x7E04).setWord 0x7E04 0x1234) (fun t => (t.reg 3, t.pc, nzp t, t.reports)) = some (0x0000, 0x3001, [false, true, false], [.memWarning 0x7E04]) := by decide

/-- V30. -/
theorem test_step_ldr_into_its_base :
    shows (((start 0x6240).setReg 1 0x4000).setWord 0x4000 0x11) (fun t => (t.reg 1, t.pc, nzp t)) = some (0x0011, 0x3001, [false, false, true]) := by decide

/-- V31. -/
theorem test_step_ldr_wraps :
    shows (((start 0x6941).setReg 5 0xFFFF).setWord 0 7) (fun t => (t.reg 4, t.pc, nzp t, t.reports)) = some (0x0007, 0x3001, [false, false, true], [.memWarning 0x0000]) := by decide

/-- V33. -/
theorem test_step_lea_keeps_the_flags :
    shows { start 0xE005 with z := true } (fun t => (t.reg 0, t.pc, nzp t)) = some (0x3006, 0x3001, [false, true, false]) := by decide

/-- V35. -/
theorem test_step_lea_is_not_reduced :
    shows (({ State.reset with pc := 0x7FFF } : State).setWord 0x7FFF 0xE000) (fun t => (t.reg 0, t.pc, nzp t)) = some (0x8000, 0x8000, [false, false, false]) := by decide

/-- V36. -/
theorem test_step_st :
    shows ((start 0x3200).setReg 1 0xBEEF) (fun t => (t.word 0x3001, t.pc, nzp t)) = some (0xBEEF, 0x3001, [false, false, false]) := by decide

/-- V37. -/
theorem test_step_st_over_itself :
    shows ((start 0x33FF).setReg 1 0x1042) (fun t => (t.word 0x3000, t.ir)) = some (0x1042, 0x33FF) := by decide

/-- V39. -/
theorem test_step_sti_to_the_data_word :
    shows (((start 0xB201).setReg 1 0x0141).setWord 0x3002 0x7E06) (fun t => (t.consoleOut, t.word 0x7E06, t.reports)) = some ([0x41], 0x0000, [.memWarning 0x7E06]) := by decide

/-- V40. -/
theorem test_step_sti_to_the_status_word :
    shows (((start 0xB201).setReg 1 0x5555).setWord 0x3002 0x7E04) (fun t => (t.consoleOut, t.word 0x7E04)) = some ([], 0x0000) := by decide

/-- V43. -/
theorem test_step_str_of_its_base :
    shows ((start 0x76C0).setReg 3 0x4000) (fun t => (t.word 0x4000, t.pc)) = some (0x4000, 0x3001) := by decide

/-- V45. -/
theorem test_step_str_into_a_stack_entry :
    shows (((start 0x74C0).setReg 2 0x2222).setReg 3 0x7DFF) (fun t => (t.word 0x7DFF, t.spc, t.reports)) = some (0x2222, 0x7E00, [.memWarning 0x7DFF]) := by decide

/-- V46. -/
theorem test_step_br_taken :
    shows { start 0x0402 with z := true } (fun t => (t.pc, nzp t)) = some (0x3003, [false, true, false]) := by decide

/-- V48. -/
theorem test_step_br_not_taken :
    shows (start 0x0E02) (fun t => (t.pc, nzp t)) = some (0x3001, [false, false, false]) := by decide

/-- V54. -/
theorem test_step_jmp :
    shows ((start 0xC080).setReg 2 0x3010) (fun t => (t.pc, t.spc)) = some (0x3010, 0x7E00) := by decide

/-- V55. -/
theorem test_step_jmp_to_zero_halts :
    shows (start 0xC000) (fun t => (t.pc, t.halted, t.counter)) = some (0x0000, true, 1) := by decide

/-- V57. -/
theorem test_step_ret_goes_to_the_popped_value :
    shows { ((start 0xC1C0).setReg 7 0x5555).setWord 0x7DFF 0x3001 with spc := 0x7DFF } (fun t => (t.reg 7, t.pc, t.spc)) = some (0x3001, 0x3001, 0x7E00) := by decide

/-- V58. -/
theorem test_step_ret_on_an_empty_stack :
    shows ((start 0xC1C0).setReg 7 0x3001) (fun t => (t.reg 7, t.pc, t.halted, t.reports)) = some (0x0000, 0x0000, true, [.stackUnderflow]) := by decide

/-- V60. -/
theorem test_step_jsr :
    shows (start 0x4804) (fun t => (t.reg 7, t.pc, t.word 0x7DFF, t.spc)) = some (0x3001, 0x3005, 0x3001, 0x7DFF) := by decide

/-- V63. -/
theorem test_step_jsr_on_a_full_stack :
    shows { start 0x4804 with spc := 0x7DF0 } (fun t => (t.reg 7, t.pc, t.word 0x7DEF, t.spc, t.reports)) = some (0x3001, 0x3005, 0x0000, 0x7DF0, [.stackOverflow 0x3001]) := by decide

/-- V65. -/
theorem test_step_jsrr_through_r7 :
    shows ((start 0x41C0).setReg 7 0x4000) (fun t => (t.reg 7, t.pc, t.word 0x7DFF)) = some (0x3001, 0x4000, 0x3001) := by decide

/-- V67. -/
theorem test_step_rti_leaves_r7 :
    shows { ((start 0x8000).setReg 7 0x5555).setWord 0x7DFF 0x3001 with spc := 0x7DFF } (fun t => (t.reg 7, t.pc, t.spc)) = some (0x5555, 0x3001, 0x7E00) := by decide

/-- V90. -/
theorem test_step_unassigned :
    shows { (start 0xD123).setReg 1 0x1111 with z := true } (fun t => (t.reg 1, t.pc, nzp t, t.counter)) = some (0x1111, 0x3001, [false, true, false], 1) := by decide

/-- V86. -/
theorem test_step_trap_without_a_service :
    shows ((start 0xF026).setReg 0 0x41) (fun t => (t.reg 0, t.reg 7, t.pc, t.consoleOut)) = some (0x0041, 0x0000, 0x3001, []) := by decide

/-- V69. -/
theorem test_step_getc :
    shows ((start 0xF020).supplyInput [0x61, 0x62]) (fun t => (t.reg 0, t.pc, t.inputConsumed, t.inputPending)) = some (0x0061, 0x3001, [0x61], [0x62]) := by decide

/-- V70. -/
theorem test_step_getc_of_an_interrupt_character :
    faultOf (step (((start 0xF020).setReg 0 0x1234).supplyInput [0x03])) =
      some (.keyboardInterrupt 0x03) := by decide

/-- V71. -/
theorem test_step_in_keeps_the_flags_and_does_not_echo :
    shows (State.supplyInput { start 0xF023 with n := true } [0x41]) (fun t => (t.reg 0, t.pc, nzp t, t.consoleOut)) = some (0x0041, 0x3001, [true, false, false], []) := by decide

/-- 43_trap.md R103. -/
theorem test_step_in_waits_without_committing :
    shows ((start 0xF023).setReg 0 0x1234) (fun t => (t.reg 0, t.pc, t.ir, t.counter, t.waiting)) = some (0x1234, 0x3000, 0x0000, 0, true) := by decide

/-- V73. -/
theorem test_step_out_of_the_low_byte :
    shows ((start 0xF021).setReg 0 0x0141) (fun t => (t.consoleOut, t.pc)) = some ([0x41], 0x3001) := by decide

/-- V74. -/
theorem test_step_out_of_cr :
    shows ((start 0xF021).setReg 0 0x000D) (fun t => t.consoleOut) = some [0x0D, 0x0A] := by decide

/-- V78. -/
theorem test_step_puts_of_a_zero_low_byte :
    shows ((((start 0xF022).setReg 0 0x4000).setWord 0x4000 0x0100).setWord 0x4001 0x41) (fun t => (t.consoleOut, t.reg 0, t.pc)) = some ([0x00, 0x41], 0x4000, 0x3001) := by decide

/-- V79. -/
theorem test_step_puts_wraps :
    shows ((((start 0xF022).setReg 0 0x7FFF).setWord 0x7FFF 0x41).setWord 0 0x42) (fun t => (t.consoleOut, t.reports)) = some ([0x41, 0x42], [.memWarning 0x7FFF, .memWarning 0x0000, .memWarning 0x0001]) := by decide

/-- V82. -/
theorem test_step_putsp :
    shows ((((start 0xF024).setReg 0 0x4000).setWord 0x4000 0x6948).setWord 0x4001 0x21) (fun t => (t.consoleOut, t.pc)) = some ([0x48, 0x69, 0x21], 0x3001) := by decide

/-- V83. -/
theorem test_step_putsp_of_zero_bytes :
    shows ((((start 0xF024).setReg 0 0x4000).setWord 0x4000 0x41).setWord 0x4001 0x4200) (fun t => t.consoleOut) = some [0x41, 0x00, 0x42] := by decide

/-- E4, V85. -/
theorem test_step_halt :
    shows (start 0xF025) (fun t => (t.pc, t.halted, t.counter, t.ir)) = some (0x0000, true, 1, 0xF025) := by decide

/-- V93: the increment of PC 0xFFFF wraps, and the boundary halts. -/
theorem test_step_pc_wraps :
    shows (({ State.reset with pc := 0xFFFF } : State).setWord 0x7FFF 0x1021)
      (fun t => (t.reg 0, t.pc, t.halted)) = some (0x0001, 0x0000, true) := by decide

/-- V94: the fetch of the status word reads 0x0000. -/
theorem test_step_fetch_of_the_status_word :
    shows (({ State.reset with pc := 0x7E04 } : State).setWord 0x7E04 0x1234)
      (fun t => (t.ir, t.pc, t.reports)) = some (0x0000, 0x7E05, [.memWarning 0x7E04]) := by decide

/-- 20_memory.md R38: the safe range is [SAFE_LO, SAFE_HI). -/
theorem test_the_safe_range :
    [0x2FFF, 0x3000, 0x7CFF, 0x7D00].map State.reset.unsafeIndex = [true, false, false, true] := by
  decide

/-! ### The host interface -/

/-- What a load leaves, or none. -/
def loads {α : Type} (image : Option (List Word)) (look : State → α) : Option α :=
  match load image State.reset with
  | .next t => some (look t)
  | .fault _ => none
  | .refused _ => none

/-- V98, V99, V101: the last image that fits, and two that do not. -/
theorem test_load_size :
    loads (some [0x7FFF, 0x0001]) (fun t => t.word 0x7FFF) = some 0x0001 ∧
    faultOf (load (some [0x7FFF, 0x0001, 0x0002]) State.reset) = some .imageTooLarge ∧
    faultOf (load (some [0x8000, 0x0001]) State.reset) = some .imageTooLarge := by decide

/-- V95, V102: the boot order; the later image wins and the first one's base is the entry. -/
theorem test_boot_of_two_images :
    (match boot [some [0x3000, 0x1111, 0x2222], some [0x3001, 0x3333]] State.reset with
      | .next t => some (t.word 0x3000, t.word 0x3001, t.pc)
      | .fault _ => none
      | .refused _ => none) = some (0x1111, 0x3333, 0x3000) := by decide

theorem test_withFetchWord :
    shows (State.reset.withFetchWord 16 0xF025) (fun t => (t.ir, t.pc, t.halted)) =
      some (0xF025, 0x0000, true) := by decide

/-! ### States and operands that meet the statements' hypotheses

Named after the statement each is for. -/

theorem test_witness_DecodeOfEncodeIsTheInstruction :
    (Instr.jmp 6).wf = true ∧ (Instr.trap 0xFF).wf = true ∧ (Instr.br true true true 0x1FF).wf = true := by
  decide

/-- E3: each width at the two sides of its sign. -/
theorem test_witness_ExtensionKeepsTheFieldsValue :
    [sext (15 : BitVec 5), sext (16 : BitVec 5), sext (0x1F : BitVec 6), sext (0x20 : BitVec 6),
      sext (0x0FF : BitVec 9), sext (0x100 : BitVec 9), sext (0x3FF : BitVec 11),
      sext (0x400 : BitVec 11), zext (0xFF : BitVec 8)] =
    [0x000F, 0xFFF0, 0x001F, 0xFFE0, 0x00FF, 0xFF00, 0x03FF, 0xFC00, 0x00FF] := by decide

/-- The reference parameters with the refusing address policy. -/
def refusing : Config := { Config.reference with oorPolicy := .refuse }

theorem test_witness_AddressReductionFollowsThePolicy :
    memIndex refusing 0x7FFF = some 0x7FFF ∧
    Config.reference.oorPolicy = .aliasLow ∧ memIndex Config.reference 0x8000 = some 0 ∧
    memIndex Config.reference 0xFFFF = some 0x7FFF ∧
    refusing.oorPolicy = .refuse ∧ memIndex refusing 0x8000 = none := by decide

/-- Inside a cycle, once the word at 0x3000 is fetched. -/
def fetched : State := { State.reset with pc := 0x3001 }

theorem test_witness_LdLoadsThePcRelativeWord :
    memIndex fetched.cfg (pcRelative fetched.pc (0x100 : BitVec 9)) = some 0x2F01 ∧
    memIndex fetched.cfg (pcRelative fetched.pc (0xFF : BitVec 9)) = some 0x3100 := by decide

/-- A pointer to the status word, read at offset 0. -/
def pointing : State := fetched.setWord 0x3001 0x7E04

theorem test_witness_LdiLoadsThroughThePointer :
    memIndex pointing.cfg (pcRelative pointing.pc (0 : BitVec 9)) = some 0x3001 ∧
    memIndex pointing.cfg (loaded pointing 0x3001) = some 0x7E04 := by decide

theorem test_witness_LdrLoadsTheBaseOffsetWord :
    memIndex fetched.cfg (baseOffset (fetched.reg 0) (0x20 : BitVec 6)) = some 0x7FE0 ∧
    memIndex fetched.cfg (baseOffset (fetched.reg 0) (0x1F : BitVec 6)) = some 0x001F := by decide

/-- Each case of a store: an ordinary word, the status word, the data word. -/
theorem test_witness_StStoresAtThePcRelativeWord :
    Memory.wf fetched.mem = true ∧
    memIndex fetched.cfg (pcRelative fetched.pc (0x1FF : BitVec 9)) = some 0x3000 ∧
    0x3000 ≠ fetched.cfg.ddrAddr ∧ 0x3000 ≠ fetched.cfg.dsrAddr ∧
    memIndex fetched.cfg (pcRelative 0x7E03 (1 : BitVec 9)) = some fetched.cfg.dsrAddr ∧
    memIndex fetched.cfg (pcRelative 0x7E03 (3 : BitVec 9)) = some fetched.cfg.ddrAddr := by decide

theorem test_witness_StiStoresThroughThePointer :
    Memory.wf pointing.mem = true ∧
    memIndex pointing.cfg (pcRelative pointing.pc (0 : BitVec 9)) = some 0x3001 ∧
    memIndex pointing.cfg (loaded pointing 0x3001) = some pointing.cfg.dsrAddr := by decide

theorem test_witness_StrStoresAtTheBaseOffsetWord :
    Memory.wf (fetched.setReg 3 0x7E00).mem = true ∧
    memIndex fetched.cfg (baseOffset ((fetched.setReg 3 0x7E00).reg 3) (6 : BitVec 6)) =
      some fetched.cfg.ddrAddr := by decide

/-- A machine whose policy refuses, a pointer out of range at 0x7FFF, and R0 out of range. -/
def outside : State :=
  ({ State.reset with cfg := refusing, pc := 0x7FFF } : State).setWord 0x7FFF 0x8000 |>.setReg 0 0xFFFF

/-- A running machine whose PC reaches no word. -/
def beyond : State := { State.reset with cfg := refusing, pc := 0x8000 }

theorem test_witness_AccessesOutOfRangeAreRefusedWhereThePolicySaysSo :
    memIndex outside.cfg (pcRelative outside.pc (1 : BitVec 9)) = none ∧
    memIndex outside.cfg (pcRelative outside.pc (0 : BitVec 9)) = some 0x7FFF ∧
    memIndex outside.cfg (loaded outside 0x7FFF) = none ∧
    memIndex outside.cfg (baseOffset (outside.reg 0) (0 : BitVec 6)) = none ∧
    memIndex outside.cfg (outside.reg 0) = none ∧
    refusalOf (exec .puts outside) = some (.outOfRange 0xFFFF) ∧
    (beyond.halted = false ∧ beyond.pc ≠ 0 ∧ memIndex beyond.cfg beyond.pc = none) ∧
    refusalOf (step beyond) = some (.outOfRange 0x8000) := by decide

theorem test_witness_JmpGoesToTheBaseRegister : (0 : Reg) ≠ 7 ∧ (6 : Reg) ≠ 7 := by decide

/-- Each case of a push: the last free entry, and a full stack. -/
theorem test_witness_JsrPushesLinksAndJumps :
    Memory.wf fetched.mem = true ∧
    ({ fetched with spc := 0x7DF0 } : State).spc = fetched.cfg.stackLimit ∧
    fetched.cfg.stackLimit < ({ fetched with spc := 0x7DF1 } : State).spc := by decide

theorem test_witness_JsrrGoesToTheOldBaseRegister : Memory.wf fetched.mem = true := by decide

/-- Each case of a pop: an empty stack, and one entry. -/
theorem test_witness_RetGoesToThePoppedValue :
    fetched.spc = fetched.cfg.stackTop ∧
    ({ fetched with spc := 0x7DFF } : State).spc ≠ fetched.cfg.stackTop := by decide

theorem test_witness_TrapOutsideTheServiceSetDoesNothing :
    (0x1F : BitVec 8) ∉ serviceVectors ∧ (0x26 : BitVec 8) ∉ serviceVectors := by decide

/-- Each case of character input: beside and on the interrupt characters, and none at hand. -/
theorem test_witness_GetcReadsOneCharacterIntoR0 :
    (fetched.supplyInput [0x02]).inputPending = [0x02] ∧ (0x02 : Byte) ∉ fetched.cfg.interruptChars ∧
    (fetched.supplyInput [0xFF]).inputPending = [0xFF] ∧ (0xFF : Byte) ∉ fetched.cfg.interruptChars ∧
    (fetched.supplyInput [0x04]).inputPending = [0x04] ∧ (0x04 : Byte) ∈ fetched.cfg.interruptChars ∧
    fetched.inputPending = [] := by decide

theorem test_witness_InReadsOneCharacterWithoutEcho :
    (fetched.supplyInput [0x05]).inputPending = [0x05] ∧ (0x05 : Byte) ∉ fetched.cfg.interruptChars ∧
    (fetched.supplyInput [0x03]).inputPending = [0x03] ∧ (0x03 : Byte) ∈ fetched.cfg.interruptChars ∧
    fetched.inputPending = [] := by decide

theorem test_witness_PutsOutputsOneByteOfEachWord :
    fetched.cfg.wf = true ∧ memIndex fetched.cfg ((fetched.setReg 0 0xFFFF).reg 0) = some 0x7FFF := by
  decide

theorem test_witness_PutspOutputsTwoBytesOfEachWord :
    fetched.cfg.wf = true ∧ memIndex fetched.cfg (fetched.reg 0) = some 0 := by decide

theorem test_witness_EveryStepKeepsTheInvariant :
    MachineInv State.reset ∧ MachineInv (start 0x4804) ∧
    (shows (start 0x4804) fun t => t.pc) = some 0x3005 := by
  unfold MachineInv; decide

/-- Each way the fetched instruction can end: complete, wait, fault, refuse. -/
theorem test_witness_StepRunsTheDecodedInstruction :
    (start 0xF020).halted = false ∧ (start 0xF020).pc ≠ 0 ∧
    memIndex (start 0xF020).cfg (start 0xF020).pc = some 0x3000 ∧
    loaded (start 0xF020) 0x3000 = 0xF020 ∧ decode 0xF020 = .getc ∧
    (shows ((start 0xF020).supplyInput [0x61]) fun t => t.waiting) = some false ∧
    (shows (start 0xF020) fun t => t.waiting) = some true ∧
    faultOf (exec .getc (fetched.supplyInput [0x03])) = some (.keyboardInterrupt 0x03) ∧
    refusalOf (exec (.ld 0 1) outside) = some (.outOfRange 0x8000) := by decide

/-- A halted machine, one at PC 0x0000, and one that runs. -/
theorem test_witness_HaltIsDetectedAtEveryBoundary :
    ({ State.reset with halted := true } : State).halted = true ∧
    State.reset.halted = false ∧ State.reset.pc = 0 ∧
    (start 0xF025).halted = false ∧ (start 0xF025).pc ≠ 0 ∧
    (shows (start 0xF025) fun t => t.halted) = some true := by decide

/-- A committed cycle, a halted machine, and a wait. -/
theorem test_witness_CounterCountsCommittedCycles :
    (shows (start 0xD000) fun t => (t.counter, t.ir)) = some (1, 0xD000) ∧
    (shows State.reset fun t => t.counter) = some 0 ∧
    (shows (start 0xF020) fun t => (t.counter, t.ir)) = some (0, 0x0000) := by decide

/-- An instruction that sets the flags, one that does not, and one that does not read them. -/
theorem test_witness_OnlyListedInstructionsTouchFlags :
    flagDest (.addImm 7 0 0) = some 7 ∧ flagDest (.lea 0 0) = none ∧ readsFlags (.lea 0 0) = false ∧
    refusalOf (exec (.lea 0 0) fetched) = none ∧ faultOf (exec (.lea 0 0) fetched) = none := by decide

theorem test_witness_OnlyListedInstructionsWriteRegisters :
    (Instr.ret).wf = true ∧ faultOf (exec .ret fetched) = none ∧ refusalOf (exec .ret fetched) = none ∧
    destReg .ret ≠ some 6 := by decide

theorem test_witness_OnlyListedInstructionsChangeMemoryCursorAndPc :
    (Instr.putsp).wf = true ∧ faultOf (exec .putsp fetched) = none ∧
    refusalOf (exec .putsp fetched) = none ∧ isStore .putsp = false ∧ isCall .putsp = false ∧
    isReturn .putsp = false ∧ readsFlags .putsp = false ∧ Instr.putsp ≠ .halt ∧
    ∀ base, Instr.putsp ≠ .jmp base := by decide

theorem test_witness_ConsoleAndReportsOnlyGrowInOrder :
    (shows ((start 0xF020).supplyInput [0x61]) fun t => (t.inputConsumed, t.inputPending)) =
      some ([0x61], []) := by decide

theorem test_witness_OnlyAnInterruptCharacterStopsARun :
    (start 0xF020).cfg.oorPolicy = .aliasLow ∧
    faultOf (step ((start 0xF020).supplyInput [0x04])) = some (.keyboardInterrupt 0x04) := by decide

/-- GETC is the next instruction. -/
theorem runs_getc (s : State) (running : s.halted = false) (pc : s.pc = 0x3000)
    (cfg : s.cfg = Config.reference) (there : s.word 0x3000 = 0xF020) : Runs s .getc := by
  refine ⟨0xF020, ⟨running, by rw [pc]; decide, 0x3000, by rw [pc, cfg]; decide, ?_⟩, by decide⟩
  rw [loaded, cfg, if_neg (by decide), there]

theorem test_witness_CharacterInputWaitsWithoutCommitting :
    Runs (start 0xF020) .getc ∧ isCharInput .getc = true ∧ (start 0xF020).inputPending = [] ∧
    (start 0xF020).waiting = false ∧ (shows (start 0xF020) fun t => t.waiting) = some true :=
  ⟨runs_getc _ (by decide) (by decide) (by decide) (by decide), by decide, by decide, by decide,
    by decide⟩

theorem test_witness_InterruptCharacterEndsTheRun :
    Runs ((start 0xF020).supplyInput [0x03]) .getc ∧ isCharInput .getc = true ∧
    ((start 0xF020).supplyInput [0x03]).inputPending = [0x03] ∧
    0x03 ∈ ((start 0xF020).supplyInput [0x03]).cfg.interruptChars :=
  ⟨runs_getc _ (by decide) (by decide) (by decide) (by decide), by decide, by decide, by decide⟩

/-- Two equal memories built by different writes; the last index. -/
theorem test_witness_MemoryReadsReturnTheLastWrite :
    Memory.wf (Memory.write (Memory.write [] 32767 1) 0 2) = true ∧ 32767 < 32768 ∧
    Memory.write (Memory.write [] 32767 1) 0 2 = Memory.write (Memory.write [] 0 2) 32767 1 ∧
    Memory.write (Memory.write [] 5 1) 5 0 = [] := by decide

/-- Each case of push and pop at its boundary. -/
theorem test_witness_PushAndPopFollowTheirRules :
    Memory.wf State.reset.mem = true ∧
    (State.stackPush { State.reset with spc := 0x7DF0 } 9).spc = 0x7DF0 ∧
    (State.stackPush { State.reset with spc := 0x7DF1 } 9).spc = 0x7DF0 ∧
    (State.stackPop { State.reset with spc := 0x7DFF }).2.spc = 0x7E00 ∧
    (State.stackPop State.reset).2.spc = 0x7E00 := by decide

theorem test_witness_StackHoldsItsCapacityAndNoMore :
    MachineInv State.reset ∧ State.reset.spc = State.reset.cfg.stackTop ∧
    (List.replicate 16 (7 : Word)).length = State.reset.cfg.stackCapacity := by
  unfold MachineInv; decide

theorem step_eq_of_shows {s t : State} (h : shows s (fun u => u) = some t) : step s = .next t := by
  unfold shows at h
  split at h
  · exact (Option.some.inj h) ▸ ‹_›
  · cases h
  · cases h

/-- The program of the pairing test: JSR #1 at 0x3000, JSR #0 at 0x3002, RET at 0x3003, so that the
first call's body is a call and its return. -/
def pairing0 : State := ((start 0x4801).setWord 0x3002 0x4800).setWord 0x3003 0xC1C0

/-- After the first call. -/
def pairing1 : State :=
  { ((pairing0.setWord 0x7DFF 0x3001).setReg 7 0x3001) with
    pc := 0x3002, spc := 0x7DFF, ir := 0x4801, counter := 1 }

/-- After the second call. -/
def pairing2 : State :=
  { ((pairing1.setWord 0x7DFE 0x3003).setReg 7 0x3003) with
    pc := 0x3003, spc := 0x7DFE, ir := 0x4800, counter := 2 }

/-- After the inner return. -/
def pairing3 : State := { pairing2 with spc := 0x7DFF, ir := 0xC1C0, counter := 3 }

/-- After the outer return. -/
def pairing4 : State := { pairing3.setReg 7 0x3001 with pc := 0x3001, spc := 0x7E00, counter := 4 }

theorem test_pairing_steps :
    shows pairing0 (fun u => u) = some pairing1 ∧ shows pairing1 (fun u => u) = some pairing2 ∧
    shows pairing2 (fun u => u) = some pairing3 ∧ shows pairing3 (fun u => u) = some pairing4 := by
  decide

theorem test_witness_ReturnsGoToTheInstructionAfterTheirCall :
    MachineInv pairing0 ∧ Runs pairing0 (.jsr 1) ∧ isCall (.jsr 1) = true ∧
    pairing0.cfg.stackLimit < pairing0.spc ∧ step pairing0 = .next pairing1 ∧
    Balanced pairing1 pairing3 ∧ Runs pairing3 .ret ∧ isReturn .ret = true ∧
    step pairing3 = .next pairing4 := by
  obtain ⟨first, second, third, fourth⟩ := test_pairing_steps
  have returns (s : State) (h : s = pairing2 ∨ s = pairing3) : Runs s .ret := by
    obtain rfl | rfl := h <;>
      exact ⟨0xC1C0, ⟨by decide, by decide, 0x3003, by decide, by decide⟩, by decide⟩
  exact ⟨by unfold MachineInv; decide,
    ⟨0x4801, ⟨by decide, by decide, 0x3000, by decide, by decide⟩, by decide⟩, by decide, by decide,
    step_eq_of_shows first,
    .nested (call := .jsr 0) ⟨0x4800, ⟨by decide, by decide, 0x3002, by decide, by decide⟩, by decide⟩
      (by decide) (by decide) (step_eq_of_shows second) (.done _) (returns _ (.inl rfl)) (by decide)
      (step_eq_of_shows third) (.done _),
    returns _ (.inr rfl), by decide, step_eq_of_shows fourth⟩

/-- STI R1, #1 at 0x3000, whose pointer at 0x3002 points to 0x3001. -/
def storingThrough : State := (start 0xB201).setWord 0x3002 0x3001

/-- STR R1, R2, #-1 at 0x3000, where R2 is 0x3002. -/
def storingOffBase : State := (start 0x72BF).setReg 2 0x3002

/-- ST R1, #0 at 0x3000, and the two others. -/
theorem test_witness_StoresAreSeenByTheNextFetch :
    (∀ s ∈ [start 0x3200, storingThrough, storingOffBase], MachineInv s ∧
      memIndex s.cfg (s.pc + 1) = some 0x3001 ∧ 0x3001 ≠ s.cfg.ddrAddr ∧ 0x3001 ≠ s.cfg.dsrAddr ∧
      s.pc + 1 ≠ 0) ∧
    Runs (start 0x3200) (.st 1 0) ∧
    memIndex (start 0x3200).cfg (pcRelative ((start 0x3200).pc + 1) (0 : BitVec 9)) = some 0x3001 ∧
    Runs storingThrough (.sti 1 1) ∧
    memIndex storingThrough.cfg (pcRelative (storingThrough.pc + 1) (1 : BitVec 9)) = some 0x3002 ∧
    memIndex storingThrough.cfg (loaded storingThrough 0x3002) = some 0x3001 ∧
    Runs storingOffBase (.str 1 2 0x3F) ∧
    memIndex storingOffBase.cfg (baseOffset (storingOffBase.reg 2) (0x3F : BitVec 6)) = some 0x3001 :=
  ⟨by unfold MachineInv; decide,
    ⟨0x3200, ⟨by decide, by decide, 0x3000, by decide, by decide⟩, by decide⟩, by decide,
    ⟨0xB201, ⟨by decide, by decide, 0x3000, by decide, by decide⟩, by decide⟩, by decide, by decide,
    ⟨0x72BF, ⟨by decide, by decide, 0x3000, by decide, by decide⟩, by decide⟩, by decide⟩

/-- A cycle in progress: GETC at 0x3000 has found no character. -/
def waitingForInput : State := { start 0xF020 with waiting := true }

/-- The last image that fits and the first that does not; a session's start, and states past it. -/
theorem test_witness_LoadStoresTheImageOrStops :
    Memory.wf State.reset.mem = true ∧ (0x7FFF : Word).toNat + [(1 : Word)].length ≤ 32768 ∧
    32768 < (0x7FFF : Word).toNat + [(1 : Word), 2].length ∧
    State.reset.beforeFirstCycle = true ∧ waitingForInput.beforeFirstCycle = false ∧
    State.reset.boundary.beforeFirstCycle = false ∧
    ({ start 0xF025 with counter := 1 } : State).beforeFirstCycle = false := by decide

/-- A parameter SAFE_LO of its own holds beside a loaded image (R5). -/
theorem test_safe_lo_can_be_fixed :
    (({ State.reset with cfg := { Config.reference with safeLo := .fixed 0x4000 } } : State).noteLoadBase
      0x3000).safeLo = 0x4000 ∧ (State.reset.noteLoadBase 0x2000).safeLo = 0x2000 := by decide

/-- What a session at a boundary or in a wait shows of its state. -/
def sessionShows {α : Type} (look : State → α) (e : Option Session) : Option (RunCondition × α) :=
  match e with
  | some (.ready s) => some (if s.halted then .halted else .suspended, look s)
  | some (.blocked s _) => some (.waiting, look s)
  | some (.terminated reason last) => some (.terminated reason, look last)
  | some .closed | some (.refused _) | none => none

/-- R123: `[0x3000, 0xF025]`, "running to completion executes exactly 1 cycle". -/
theorem test_run_to_halt_executes_one_cycle :
    sessionShows (fun t => t.counter) (runToHalt 1 (start 0xF025)) = some (.halted, 1) := by decide

/-- R125, R103: GETC at 0x3000 and HALT after it under RunFor(5): a wait with no cycle done, then, with
the character, two of the five. -/
theorem test_a_wait_takes_none_of_the_count :
    runFor 5 ((start 0xF020).setWord 0x3001 0xF025) =
      .blocked ({ ((start 0xF020).setWord 0x3001 0xF025) with waiting := true } : State) (some 5) ∧
    sessionShows (fun t => (t.counter, t.reg 0, t.inputConsumed))
      ((Session.blocked ((waitingForInput).setWord 0x3001 0xF025) (some 5)).consoleInput 0 0x41) =
      some (.halted, 2, 0x41, [0x41]) := by decide

/-- R104, R127: an interrupt character ends a blocked run to halt; what is left is what was before. -/
theorem test_an_interrupt_character_terminates_a_run_to_halt :
    (Session.blocked waitingForInput none).consoleInput 1 0x03 =
      some (.terminated (.keyboardInterrupt 0x03) (waitingForInput.supplyInput [0x03])) := by decide

/-- A state at a boundary, one in a wait, a run to halt that ends, and one that waits, under two bounds
each. -/
theorem test_witness_SteppingIsTheRunDriver :
    (start 0xF025).waiting = false ∧ (waitingForInput.halted = false ∧ waitingForInput.pc ≠ 0) ∧
    runToHalt 1 (start 0xF025) = some (runFor 5 (start 0xF025)) ∧
    RunsToHalt (start 0xF025) (runFor 1 (start 0xF025)) ∧
    RunsToHalt State.reset (.ready State.reset.boundary) ∧
    RunsToHalt (start 0xF020) (.blocked waitingForInput none) :=
  ⟨by decide, by decide, by decide, ⟨1, by decide⟩, ⟨0, by decide⟩, ⟨1, by decide⟩⟩

/-- The reset state, whose PC nothing is fetched from, and one whose PC is used. -/
theorem test_witness_ThePlacedWordIsFetchedNext :
    Memory.wf State.reset.mem = true ∧ State.reset.canFetch = false ∧ (start 0).canFetch = true := by
  decide

/-- Every request but console input; a wait, a first cycle done, and a session's start. -/
theorem test_witness_TheHostActsOnlyInItsTurn :
    (∀ request ∈ [HostRequest.load none, .setEntry 0, .runToHalt, .runFor 1, .dumpMemory 0x7FFF 1,
      .dumpRegisters, .terminate], ∀ c, request ≠ .consoleInput c) ∧
    waitingForInput.waiting = true ∧ ({ start 0 with counter := 1 } : State).counter ≠ 0 ∧
    State.reset.beforeFirstCycle = true ∧ [State.reset.word 0x7FFF].length = 1 ∧ 0x7FFF + 0 < 32768 := by
  refine ⟨fun request h c e => ?_, by decide, by decide, by decide, by decide, by decide⟩
  subst e
  simp at h

/-- A session at its start, one in a wait, and one that has ended, each with a request it answers. -/
theorem test_witness_HostRequestsKeepTheSessionInvariant :
    SessionInv (.ready (start 0xF025)) ∧ (perform 1 .runToHalt (.ready (start 0xF025))).isSome = true ∧
    SessionInv (.blocked waitingForInput (some 1)) ∧
    (perform 0 (.consoleInput 0x41) (.blocked waitingForInput (some 1))).isSome = true ∧
    SessionInv (.terminated .imageEmpty State.reset) ∧
    (perform 0 .dumpRegisters (.terminated .imageEmpty State.reset)).isSome = true := by
  simp only [SessionInv, MachineInv]
  exact ⟨by decide, by decide, by decide, by decide, by decide, by decide⟩

end Sys2Proof.Tests
end

section
/-! Sign and zero extension of a field (00_scope.md R8): the value of the extended word, as an unsigned
and as a signed number. -/

namespace Sys2Proof.Proofs

open Sys2Proof.Machine

/-- The fill is stated on the field's value, as R8 does with the top bit: `2 ^ (n - 1) ≤ v` says that
the top bit is 1. -/
theorem toNat_sext {n : Nat} (hn : n ≤ 16) (v : BitVec n) :
    (sext v).toNat = if 2 ^ (n - 1) ≤ v.toNat then v.toNat + (2 ^ 16 - 2 ^ n) else v.toNat := by
  rw [sext, BitVec.toNat_signExtend, BitVec.toNat_setWidth_of_le hn, BitVec.msb_eq_decide]
  by_cases htop : 2 ^ (n - 1) ≤ v.toNat
  · simp [htop]
  · simp [htop]

@[simp] theorem toInt_sext {n : Nat} (hn : n ≤ 16) (v : BitVec n) : (sext v).toInt = v.toInt :=
  BitVec.toInt_signExtend_of_le hn

@[simp] theorem toNat_zext {n : Nat} (hn : n ≤ 16) (v : BitVec n) : (zext v).toNat = v.toNat :=
  BitVec.toNat_setWidth_of_le hn

/-- Settles O6: the widths in use are at most 16, and up to 16 bits an extension keeps the value. -/
theorem extensionKeepsTheFieldsValue : Obligations.ExtensionKeepsTheFieldsValue := by
  refine ⟨fun N hN v => ?_, fun N hN v => toNat_zext hN v⟩
  have hN16 : N ≤ 16 := by omega
  exact ⟨toNat_sext hN16 v, toInt_sext hN16 v⟩

end Sys2Proof.Proofs
end

section
/-! The flags (10_state.md R18 to R20): what `setcc` leaves, which instructions write the flags, and that
no instruction but BR reads them. An operation that neither writes nor reads the flags commutes with
replacing them; said once per shared operation, this gives both halves of R20. -/

namespace Sys2Proof.Machine

/-! ### `setcc` and `setResult` (R19) -/

/-- Of the three flags `setcc` writes, exactly one is set. -/
theorem count_flags_setcc (s : State) (v : Word) :
    [(s.setcc v).n, (s.setcc v).z, (s.setcc v).p].count true = 1 := by
  obtain ⟨hn, hz, hp⟩ := flagsFrom_setcc s v
  have clear {flag : Bool} {P : Prop} (iff : flag = true ↔ P) (not : ¬P) : flag = false :=
    Bool.eq_false_iff.2 fun set => not (iff.1 set)
  obtain zero | pos | neg : v.toNat = 0 ∨ (0 < v.toNat ∧ v.toNat < 0x8000) ∨ 0x8000 ≤ v.toNat := by
    omega
  · rw [clear hn (by omega), hz.2 zero, clear hp (by omega)]; rfl
  · rw [clear hn (by omega), clear hz (by omega), hp.2 pos]; rfl
  · rw [hn.2 neg, clear hz (by omega), clear hp (by omega)]; rfl

theorem sameOutside_setcc (s : State) (v : Word) : SameOutside s (s.setcc v) :=
  ⟨fun _ => rfl, rfl, rfl, rfl, ⟨rfl, rfl, rfl⟩, ⟨rfl, rfl, rfl, rfl, rfl⟩⟩

@[simp] theorem State.reg_setResult_same (s : State) (dr : Reg) (v : Word) :
    (s.setResult dr v).reg dr = v :=
  State.reg_setReg_same s dr v

theorem State.reg_setResult_ne (s : State) {dr q : Reg} (v : Word) (ne : q ≠ dr) :
    (s.setResult dr v).reg q = s.reg q :=
  State.reg_setReg_ne s v ne

/-- The flags are those of the value now in the destination (R20: "each on the value written to DR"). -/
theorem flagsFrom_setResult (s : State) (dr : Reg) (v : Word) :
    FlagsFrom ((s.setResult dr v).reg dr) (s.setResult dr v) := by
  rw [State.reg_setResult_same]
  exact flagsFrom_setcc _ v

/-- An instruction with a flag destination ends by writing its result there and calling `setcc` on it,
in a state whose registers are the old ones. -/
theorem exec_flagDest_next {i : Instr} {s t : State} {dr : Reg} (writes : flagDest i = some dr)
    (h : exec i s = .next t) : ∃ u v, SameRegs s u ∧ t = u.setResult dr v := by
  cases i with
  | addReg | addImm | andReg | andImm | notReg =>
    cases writes; cases h
    exact ⟨s, _, fun _ => rfl, rfl⟩
  | ld _ off =>
    cases writes
    simp only [exec, execLd] at h
    obtain ⟨a, _, h⟩ := readThen_next h
    cases h
    exact ⟨_, _, State.warn_reg s _ a, rfl⟩
  | ldr _ base off =>
    cases writes
    simp only [exec, execLdr] at h
    obtain ⟨a, _, h⟩ := readThen_next h
    cases h
    exact ⟨_, _, State.warn_reg s _ a, rfl⟩
  | ldi _ off =>
    cases writes
    simp only [exec, execLdi] at h
    obtain ⟨a, _, h⟩ := readThen_next h
    obtain ⟨b, _, h⟩ := readThen_next h
    cases h
    exact ⟨_, _, fun q => by rw [State.warn_reg, State.warn_reg], rfl⟩
  | br | st | sti | str | lea | jsr | jsrr | ret | rti | jmp | unassigned | trap | getc | inChar
  | out | puts | putsp | halt => cases writes

/-! ### Replacing the flags -/

/-- The state with its three flags replaced. -/
def State.withFlags (s : State) (n z p : Bool) : State := { s with n := n, z := z, p := p }

/-- The outcome with the flags of its next state, if any, replaced. -/
def resultWithFlags (n z p : Bool) (r : Result) : Result :=
  followedBy r fun t => .next (t.withFlags n z p)

theorem eraseFlags_resultWithFlags (n z p : Bool) (r : Result) :
    eraseFlags (resultWithFlags n z p r) = eraseFlags r := by
  cases r <;> rfl

/-- Where the old flags put into an outcome leave it as it is, its next state has the old flags. -/
theorem sameFlags_of_resultWithFlags {s t : State} {r : Result}
    (same : r = resultWithFlags s.n s.z s.p r) (h : r = .next t) : SameFlags s t := by
  rw [h] at same
  have kept : t = t.withFlags s.n s.z s.p := Host.Outcome.next.inj same
  rw [kept]
  exact ⟨rfl, rfl, rfl⟩

section
variable (s : State) (n z p : Bool)

@[simp] theorem State.withFlags_cfg : (s.withFlags n z p).cfg = s.cfg := rfl
@[simp] theorem State.withFlags_inputPending : (s.withFlags n z p).inputPending = s.inputPending := rfl
@[simp] theorem State.withFlags_readIndex (a : Nat) :
    (s.withFlags n z p).readIndex a = s.readIndex a := rfl

/-! ### The shared operations neither write nor read the flags -/

@[simp] theorem warn_withFlags (addr : Word) (a : Nat) :
    (s.withFlags n z p).warn addr a = (s.warn addr a).withFlags n z p := by
  rw [State.warn_spec, State.warn_spec]; rfl

@[simp] theorem consolePutCr_withFlags (translate : Bool) (b : Byte) :
    (s.withFlags n z p).consolePutCr translate b =
      (s.consolePutCr translate b).withFlags n z p := by
  rw [State.consolePutCr_spec, State.consolePutCr_spec]; rfl

@[simp] theorem writeIndex_withFlags (a : Nat) (v : Word) :
    (s.withFlags n z p).writeIndex a v = (s.writeIndex a v).withFlags n z p := by
  obtain ⟨ddr, e⟩ | ⟨notDdr, dsr, e⟩ | ⟨notDdr, notDsr, e⟩ := State.writeIndex_spec s a v <;>
    rw [e, State.writeIndex]
  · exact (if_pos ddr).trans (State.consolePutCr_spec _ _ _)
  · exact (if_neg notDdr).trans (if_pos dsr)
  · exact (if_neg notDdr).trans (if_neg notDsr)

theorem memWrite_withFlags (addr v : Word) :
    memWrite (s.withFlags n z p) addr v = resultWithFlags n z p (memWrite s addr v) := by
  unfold memWrite
  rw [State.withFlags_cfg]
  cases memIndex s.cfg addr with
  | none => rfl
  | some a => simp only [warn_withFlags, writeIndex_withFlags]; rfl

theorem readThen_withFlags (addr : Word) (next : Word → State → Result) :
    readThen (s.withFlags n z p) addr next =
      readThen s addr fun w u => next w (u.withFlags n z p) := by
  unfold readThen
  rw [State.withFlags_cfg]
  cases memIndex s.cfg addr with
  | none => rfl
  | some a => simp only [warn_withFlags, State.withFlags_readIndex]

theorem resultWithFlags_readThen (addr : Word) (next : Word → State → Result) :
    resultWithFlags n z p (readThen s addr next) =
      readThen s addr fun w u => resultWithFlags n z p (next w u) := by
  unfold readThen
  cases memIndex s.cfg addr <;> rfl

theorem stackPush_withFlags (v : Word) :
    (s.withFlags n z p).stackPush v = (s.stackPush v).withFlags n z p := by
  by_cases full : s.spc ≤ s.cfg.stackLimit
  · rw [State.stackPush_full full, State.stackPush_full (s := s.withFlags n z p) full]; rfl
  · have room := Nat.not_le.1 full
    rw [State.stackPush_room room, State.stackPush_room (s := s.withFlags n z p) room]; rfl

theorem stackPop_withFlags :
    (s.withFlags n z p).stackPop = (s.stackPop.1, s.stackPop.2.withFlags n z p) := by
  by_cases empty : s.spc = s.cfg.stackTop
  · rw [State.stackPop_empty empty, State.stackPop_empty (s := s.withFlags n z p) empty]; rfl
  · rw [State.stackPop_entry empty, State.stackPop_entry (s := s.withFlags n z p) empty]; rfl

theorem callTo_withFlags (target : Word) :
    callTo (s.withFlags n z p) target = resultWithFlags n z p (callTo s target) := by
  rw [callTo, stackPush_withFlags]; rfl

theorem returnJump_withFlags :
    returnJump (s.withFlags n z p) = resultWithFlags n z p (returnJump s) := by
  rw [returnJump, stackPop_withFlags]; rfl

theorem charInput_withFlags :
    charInput (s.withFlags n z p) = resultWithFlags n z p (charInput s) := by
  unfold charInput
  rw [State.withFlags_inputPending, State.withFlags_cfg]
  cases s.inputPending with
  | nil => rfl
  | cons c rest => dsimp only; split_ifs <;> rfl

theorem charOutput_withFlags :
    charOutput (s.withFlags n z p) = resultWithFlags n z p (charOutput s) :=
  congrArg Host.Outcome.next (consolePutCr_withFlags s n z p true _)

/-- A string walk leaves the flags alone where the output of one word does. -/
theorem stringWalk_withFlags {emit : State → Word → State}
    (emits : ∀ (u : State) (w : Word), emit (u.withFlags n z p) w = (emit u w).withFlags n z p)
    (fuel : Nat) (addr : Word) :
    stringWalk emit fuel addr (s.withFlags n z p) =
      resultWithFlags n z p (stringWalk emit fuel addr s) := by
  induction fuel generalizing addr s with
  | zero => rfl
  | succ fuel ih =>
    rw [stringWalk, stringWalk, State.withFlags_cfg]
    cases memIndex s.cfg addr with
    | none => rfl
    | some a =>
      simp only [State.withFlags_readIndex, warn_withFlags, emits, ih]
      split_ifs <;> rfl

theorem putString_withFlags :
    putString (s.withFlags n z p) = resultWithFlags n z p (putString s) :=
  stringWalk_withFlags s n z p (fun u _ => consolePutCr_withFlags u n z p _ _) _ _

theorem putPackedString_withFlags :
    putPackedString (s.withFlags n z p) = resultWithFlags n z p (putPackedString s) :=
  stringWalk_withFlags s n z p (fun u w => by rw [putspWord_spec, putspWord_spec]; rfl) _ _

theorem execTrap_withFlags (vec : BitVec 8) :
    execTrap vec (s.withFlags n z p) = resultWithFlags n z p (execTrap vec s) := by
  unfold execTrap
  split_ifs
  · exact charInput_withFlags s n z p
  · exact charOutput_withFlags s n z p
  · exact putString_withFlags s n z p
  · exact charInput_withFlags s n z p
  · exact putPackedString_withFlags s n z p
  · rfl
  · rfl

/-! ### The instructions (R20) -/

/-- An instruction that is neither a flag writer nor BR commutes with replacing the flags. -/
theorem exec_withFlags {i : Instr} (writes : flagDest i = none) (reads : readsFlags i = false) :
    exec i (s.withFlags n z p) = resultWithFlags n z p (exec i s) := by
  cases i with
  | addReg | addImm | andReg | andImm | notReg | ld | ldi | ldr => cases writes
  | br => cases reads
  | lea | unassigned | halt => rfl
  | st | str => exact memWrite_withFlags s n z p _ _
  | sti sr off =>
    simp only [exec, execSti, readThen_withFlags, memWrite_withFlags, resultWithFlags_readThen]; rfl
  | jsr | jsrr => exact callTo_withFlags s n z p _
  | ret => exact returnJump_withFlags s n z p
  | rti => rw [exec_rti, exec_rti, stackPop_withFlags]; rfl
  | jmp base =>
    simp only [exec, execJmp]
    split_ifs
    · exact returnJump_withFlags s n z p
    · rfl
  | trap vec => exact execTrap_withFlags s n z p vec
  | getc | inChar => exact charInput_withFlags s n z p
  | out => exact charOutput_withFlags s n z p
  | puts => exact putString_withFlags s n z p
  | putsp => exact putPackedString_withFlags s n z p

/-- A flag writer answers the same whatever the flags were, since `setcc` replaces all three. -/
theorem exec_withFlags_of_flagDest {i : Instr} {dr : Reg} (writes : flagDest i = some dr) :
    exec i (s.withFlags n z p) = exec i s := by
  cases i with
  | addReg | addImm | andReg | andImm | notReg => rfl
  | ld dr off => simp only [exec, execLd, readThen_withFlags]; rfl
  | ldr dr base off => simp only [exec, execLdr, readThen_withFlags]; rfl
  | ldi dr off => simp only [exec, execLdi, readThen_withFlags]; rfl
  | br | st | sti | str | lea | jsr | jsrr | ret | rti | jmp | unassigned | trap | getc | inChar
  | out | puts | putsp | halt => cases writes

end

/-- An instruction that is no flag writer leaves the flags alone. -/
theorem sameFlags_of_exec {i : Instr} {s t : State} (writes : flagDest i = none)
    (h : exec i s = .next t) : SameFlags s t := by
  cases reads : readsFlags i with
  | false => exact sameFlags_of_resultWithFlags (exec_withFlags s s.n s.z s.p writes reads) h
  | true =>
    cases i with
    | br n z p off =>
      simp only [exec, execBr] at h
      cases h
      split_ifs <;> exact ⟨rfl, rfl, rfl⟩
    | _ => cases reads

end Sys2Proof.Machine

namespace Sys2Proof.Proofs

open Sys2Proof.Machine

/-- Settles O9: the flags are the result's, exactly one is set, and `setcc` writes nothing else. -/
theorem setccSetsExactlyTheFlagOfTheResult : Obligations.SetccSetsExactlyTheFlagOfTheResult :=
  fun s v => ⟨flagsFrom_setcc s v, count_flags_setcc s v, fun _ => rfl, rfl, sameOutside_setcc s v⟩

/-- Settles O43: a flag writer ends in `setResult`; every other instruction leaves the flags alone; and
but for BR, replacing the flags beforehand changes at most the flags of the answer. -/
theorem onlyListedInstructionsTouchFlags : Obligations.OnlyListedInstructionsTouchFlags := by
  refine ⟨fun i s t h => ⟨fun dr writes => ?_, fun writes => sameFlags_of_exec writes h⟩,
    fun i s n z p reads => ?_⟩
  · obtain ⟨u, v, _, rfl⟩ := exec_flagDest_next writes h
    exact flagsFrom_setResult u dr v
  · change eraseFlags (exec i (s.withFlags n z p)) = _
    cases writes : flagDest i with
    | none => rw [exec_withFlags s n z p writes reads, eraseFlags_resultWithFlags]
    | some dr => rw [exec_withFlags_of_flagDest s n z p writes]

end Sys2Proof.Proofs
end

section
/-! Which general registers an instruction may write (10_state.md R15): the shared operations over
memory, the console and the call stack write none, and each meaning writes at most its `destReg`. -/

namespace Sys2Proof.Machine

/-! ### The shared operations write no register -/

@[simp] theorem writeIndex_reg (s : State) (a : Nat) (v : Word) (q : Reg) :
    (s.writeIndex a v).reg q = s.reg q := by
  obtain ⟨_, e⟩ | ⟨_, _, e⟩ | ⟨_, _, e⟩ := State.writeIndex_spec s a v <;> rw [e] <;> rfl

@[simp] theorem stackPush_reg (s : State) (v : Word) (q : Reg) :
    (s.stackPush v).reg q = s.reg q := by
  unfold State.stackPush
  split_ifs <;> rfl

@[simp] theorem stackPop_reg (s : State) (q : Reg) : s.stackPop.2.reg q = s.reg q := by
  unfold State.stackPop
  split_ifs <;> rfl

theorem sameRegs_of_memWrite {s t : State} {addr v : Word} (h : memWrite s addr v = .next t) :
    SameRegs s t := by
  obtain ⟨a, _, rfl⟩ := memWrite_next h
  intro q
  rw [writeIndex_reg, State.warn_reg]

theorem sameRegs_of_charOutput {s t : State} (h : charOutput s = .next t) : SameRegs s t := by
  rw [charOutput, State.consolePutCr_spec] at h
  cases h
  exact fun _ => rfl

theorem sameRegs_of_putString {s t : State} (h : putString s = .next t) : SameRegs s t := by
  obtain ⟨out, reports, e⟩ | ⟨_, _, e⟩ := putString_spec s <;> rw [e] at h <;> cases h
  exact fun _ => rfl

theorem sameRegs_of_putPackedString {s t : State} (h : putPackedString s = .next t) :
    SameRegs s t := by
  obtain ⟨out, reports, e⟩ | ⟨_, _, e⟩ := putPackedString_spec s <;> rw [e] at h <;> cases h
  exact fun _ => rfl

/-! ### The linkage and the character input write one register -/

theorem sameRegsBut_of_charInput {s t : State} (h : charInput s = .next t) : SameRegsBut 0 s t := by
  obtain ⟨_, e⟩ | ⟨c, rest, _, ⟨_, e⟩ | ⟨_, e⟩⟩ := charInput_spec s <;> rw [e] at h <;> cases h
  · exact fun _ _ => rfl
  · intro q ne
    rw [State.reg_setReg_ne _ _ ne, State.consume_reg]

theorem sameRegsBut_of_callTo {s t : State} {target : Word} (h : callTo s target = .next t) :
    SameRegsBut 7 s t := by
  cases h
  intro q ne
  rw [State.setPc_reg, State.reg_setReg_ne _ _ ne, stackPush_reg]

theorem sameRegsBut_of_returnJump {s t : State} (h : returnJump s = .next t) :
    SameRegsBut 7 s t := by
  cases h
  intro q ne
  rw [State.setPc_reg, State.reg_setReg_ne _ _ ne, stackPop_reg]

/-! ### The instructions (R15) -/

theorem sameRegsBut_of_flagDest {i : Instr} {s t : State} {dr : Reg} (writes : flagDest i = some dr)
    (h : exec i s = .next t) : SameRegsBut dr s t := by
  obtain ⟨u, v, same, rfl⟩ := exec_flagDest_next writes h
  intro q ne
  rw [State.reg_setResult_ne u v ne, same q]

/-- A vector outside the service set does nothing (43_trap.md R96). -/
theorem exec_trap_of_wf {vec : BitVec 8} (wf : (Instr.trap vec).wf = true) (s : State) :
    exec (.trap vec) s = .next s := by
  simp only [Instr.wf, serviceVectors, decide_eq_true_eq, List.mem_cons, List.not_mem_nil, or_false,
    not_or] at wf
  obtain ⟨getc, out, puts, inChar, putsp, halt⟩ := wf
  rw [exec, execTrap, if_neg getc, if_neg out, if_neg puts, if_neg inChar, if_neg putsp, if_neg halt]

theorem exec_jmp_of_wf {base : Reg} (wf : (Instr.jmp base).wf = true) (s : State) :
    exec (.jmp base) s = .next (s.setPc (s.reg base)) :=
  if_neg (of_decide_eq_true wf)

theorem sameRegsBut_of_destReg {i : Instr} {s t : State} {dr : Reg} (writes : destReg i = some dr)
    (h : exec i s = .next t) : SameRegsBut dr s t := by
  cases i with
  | addReg | addImm | andReg | andImm | notReg | ld | ldi | ldr =>
    cases writes; exact sameRegsBut_of_flagDest rfl h
  | lea =>
    cases writes; cases h
    exact fun q ne => State.reg_setReg_ne s _ ne
  | jsr | jsrr => cases writes; exact sameRegsBut_of_callTo h
  | ret => cases writes; exact sameRegsBut_of_returnJump h
  | getc | inChar => cases writes; exact sameRegsBut_of_charInput h
  | br | st | sti | str | rti | jmp | unassigned | trap | out | puts | putsp | halt => cases writes

theorem sameRegs_of_destReg_none {i : Instr} {s t : State} (wf : i.wf = true)
    (none : destReg i = none) (h : exec i s = .next t) : SameRegs s t := by
  cases i with
  | addReg | addImm | andReg | andImm | notReg | ld | ldi | ldr | lea | jsr | jsrr | ret | getc
  | inChar => cases none
  | br n z p off =>
    simp only [exec, execBr] at h
    cases h
    split_ifs <;> exact fun _ => rfl
  | st | str => exact sameRegs_of_memWrite h
  | sti sr off =>
    simp only [exec, execSti] at h
    obtain ⟨a, _, h⟩ := readThen_next h
    exact fun q => (sameRegs_of_memWrite h q).trans (State.warn_reg s _ a q)
  | rti => cases h; exact stackPop_reg s
  | jmp base => rw [exec_jmp_of_wf wf] at h; cases h; exact fun _ => rfl
  | trap vec => rw [exec_trap_of_wf wf] at h; cases h; exact fun _ => rfl
  | unassigned | halt => cases h; exact fun _ => rfl
  | out => exact sameRegs_of_charOutput h
  | puts => exact sameRegs_of_putString h
  | putsp => exact sameRegs_of_putPackedString h

end Sys2Proof.Machine

namespace Sys2Proof.Proofs

open Sys2Proof.Machine

/-- Settles O44: an instruction with a listed register keeps every other, one without keeps all. -/
theorem onlyListedInstructionsWriteRegisters : Obligations.OnlyListedInstructionsWriteRegisters := by
  intro i s t wf h r other
  cases writes : destReg i with
  | none => exact sameRegs_of_destReg_none wf writes h r
  | some dr => exact sameRegsBut_of_destReg writes h r fun e => other (by rw [writes, e])

end Sys2Proof.Proofs
end

section
/-! The call stack (20_memory.md R42 to R45): what a push and a pop do and leave unchanged, and what a
run of pushes that fit leaves in the memory. -/

namespace Sys2Proof.Machine

/-! ### One push, one pop (R43, R44) -/

/-- Nothing but the memory, the cursor and the reports may differ: the frame of the stack operations. -/
def SameButCallStack (s t : State) : Prop :=
  SameRegs s t ∧ SameFlags s t ∧ t.pc = s.pc ∧ t.consoleOut = s.consoleOut ∧ SameInput s t ∧
    SameEngine s t

theorem sameButCallStack_update (s : State) (spc : Nat) (mem : Memory) (reports : List Report) :
    SameButCallStack s { s with spc := spc, mem := mem, reports := reports } :=
  ⟨fun _ => rfl, ⟨rfl, rfl, rfl⟩, rfl, rfl, ⟨rfl, rfl, rfl⟩, ⟨rfl, rfl, rfl, rfl, rfl⟩⟩

theorem sameButCallStack_stackPush (s : State) (v : Word) : SameButCallStack s (s.stackPush v) := by
  obtain full | room := le_or_gt s.spc s.cfg.stackLimit
  · rw [State.stackPush_full full]; exact sameButCallStack_update s _ _ _
  · rw [State.stackPush_room room]; exact sameButCallStack_update s _ _ _

theorem sameButCallStack_stackPop (s : State) : SameButCallStack s s.stackPop.2 := by
  by_cases empty : s.spc = s.cfg.stackTop
  · rw [State.stackPop_empty empty]; exact sameButCallStack_update s _ _ _
  · rw [State.stackPop_entry empty]; exact sameButCallStack_update s _ _ _

theorem pushEffect_stackPush {s : State} (memWf : Memory.wf s.mem = true) (v : Word) :
    PushEffect v s (s.stackPush v) := by
  refine ⟨fun full => ?_, fun notFull => ?_⟩
  · rw [State.stackPush_full (by omega)]
    exact ⟨rfl, fun _ => rfl, rfl⟩
  · have room : s.cfg.stackLimit < s.spc := by omega
    rw [State.stackPush_room room]
    exact ⟨Nat.sub_add_cancel (Nat.zero_lt_of_lt room), State.word_setWord_same memWf _ v,
      fun _ ne => State.word_setWord_ne s v ne, rfl⟩

theorem popEffect_stackPop (s : State) : PopEffect s.stackPop.1 s s.stackPop.2 := by
  by_cases empty : s.spc = s.cfg.stackTop
  · rw [State.stackPop_empty empty]
    exact ⟨fun _ => rfl, fun _ => ⟨rfl, rfl, rfl⟩, (absurd empty ·)⟩
  · rw [State.stackPop_entry empty]
    exact ⟨fun _ => rfl, (absurd · empty), fun _ => ⟨rfl, rfl, rfl⟩⟩

/-! ### A run of pushes (R42, R43) -/

/-- `t` is `s` with the values `vs` pushed, none of them onto a full stack: they stand in order from
below the cursor of `s` downwards, and the words from that cursor up are as they were. -/
structure HoldsPushed (s : State) (vs : List Word) (t : State) : Prop where
  cfg : t.cfg = s.cfg
  cursor : t.spc + vs.length = s.spc
  reports : t.reports = s.reports
  values : ∀ k (h : k < vs.length), t.word (s.spc - 1 - k) = vs[k]
  above : ∀ a, s.spc ≤ a → t.word a = s.word a

theorem HoldsPushed.nil (s : State) : HoldsPushed s [] s :=
  ⟨rfl, rfl, rfl, nofun, fun _ _ => rfl⟩

/-- A push with room, before further pushes. -/
theorem HoldsPushed.cons {s t : State} {v : Word} {vs : List Word} (memWf : Memory.wf s.mem = true)
    (room : s.cfg.stackLimit < s.spc) (rest : HoldsPushed (s.stackPush v) vs t) :
    HoldsPushed s (v :: vs) t := by
  obtain ⟨cursor, value, others, reports⟩ := (pushEffect_stackPush memWf v).2 (by omega)
  refine ⟨rest.cfg.trans (Effect.stackPush s v).engine.1, ?_, rest.reports.trans reports, ?_, ?_⟩
  · rw [List.length_cons, ← Nat.add_assoc, rest.cursor, cursor]
  · rintro (_ | k) h
    · have slot : s.spc - 1 - 0 = (s.stackPush v).spc := by omega
      rw [slot, rest.above _ le_rfl, value, List.getElem_cons_zero]
    · have slot : s.spc - 1 - (k + 1) = (s.stackPush v).spc - 1 - k := by omega
      rw [slot, rest.values k (Nat.lt_of_succ_lt_succ h), List.getElem_cons_succ]
  · intro a ge
    rw [rest.above a (by omega), others a (by omega)]

theorem holdsPushed_foldl_stackPush {s : State} {vs : List Word} (cfgWf : s.cfg.wf = true)
    (memWf : Memory.wf s.mem = true) (cursor : CursorInRange s)
    (room : s.cfg.stackLimit + vs.length ≤ s.spc) :
    HoldsPushed s vs (vs.foldl State.stackPush s) := by
  induction vs generalizing s with
  | nil => exact HoldsPushed.nil s
  | cons v vs ih =>
    rw [List.length_cons] at room
    have notFull : s.cfg.stackLimit < s.spc := by omega
    obtain ⟨spc, -⟩ := (pushEffect_stackPush memWf v).2 (by omega)
    have cfg : (s.stackPush v).cfg = s.cfg := (Effect.stackPush s v).engine.1
    obtain ⟨memWf', cursor'⟩ := (Effect.stackPush s v).stored cfgWf memWf cursor
    exact .cons memWf notFull (ih (by rw [cfg, cfgWf]) memWf' cursor' (by rw [cfg]; omega))

end Sys2Proof.Machine

namespace Sys2Proof.Proofs

open Sys2Proof.Machine

/-- Settles O51: the effect of each operation in its full or empty case, and the frame they share. -/
theorem pushAndPopFollowTheirRules : Obligations.PushAndPopFollowTheirRules :=
  ⟨fun s v memWf => ⟨pushEffect_stackPush memWf v, sameButCallStack_stackPush s v⟩,
    fun s => ⟨popEffect_stackPop s, sameButCallStack_stackPop s⟩⟩

/-- Settles O52: an empty stack has room for its capacity, since STACK_LIMIT is STACK_TOP less it; after
that many pushes the cursor is at STACK_LIMIT. -/
theorem stackHoldsItsCapacityAndNoMore : Obligations.StackHoldsItsCapacityAndNoMore := by
  intro s vs inv empty fits
  obtain ⟨cfgWf, memWf, cursor, -⟩ := inv
  obtain ⟨-, capacityLe, -⟩ := Config.wf_stack cfgWf
  have limit : s.cfg.stackLimit + s.cfg.stackCapacity = s.cfg.stackTop :=
    Nat.sub_add_cancel capacityLe
  have pushed := holdsPushed_foldl_stackPush (vs := vs) cfgWf memWf cursor (by omega)
  have spc := pushed.cursor
  refine ⟨spc.trans empty, pushed.reports, empty ▸ pushed.values, fun full v => ?_⟩
  exact State.stackPush_full (by rw [pushed.cfg]; omega) v

end Sys2Proof.Proofs
end

section
/-! Stores into the next instruction's word (20_memory.md R52, R56): the handler's store is in the
memory the next cycle fetches from. -/

namespace Sys2Proof.Machine

theorem exec_st (sr : Reg) (off : BitVec 9) (s : State) :
    exec (.st sr off) s = memWrite s (pcRelative s.pc off) (s.reg sr) := rfl

theorem exec_str (sr base : Reg) (off : BitVec 6) (s : State) :
    exec (.str sr base off) s = memWrite s (baseOffset (s.reg base) off) (s.reg sr) := rfl

@[simp] theorem handlerState_readIndex (s : State) (a i : Nat) :
    (handlerState s a).readIndex i = s.readIndex i := by rw [handlerState_spec]; rfl

/-- The step of a machine that runs `i` is a cycle with `i`'s handler. -/
theorem step_of_runs {s : State} {i : Instr} (runs : Runs s i) :
    s.halted = false ∧ ∃ a, step s = finishCycle s (exec i (handlerState s a)) := by
  obtain ⟨w, ⟨running, pc, a, index, rfl⟩, rfl⟩ := runs
  exact ⟨running, a, step_of_fetch running pc index⟩

/-- Inside a handler: the machine, once it commits, fetches next from index `b`, an ordinary word. -/
structure NextFetchAt (b : Nat) (u : State) : Prop where
  running : u.halted = false
  committing : u.waiting = false
  memWf : Memory.wf u.mem = true
  pc : u.pc ≠ 0x0000
  index : memIndex u.cfg u.pc = some b
  notData : b ≠ u.cfg.ddrAddr
  notStatus : b ≠ u.cfg.dsrAddr

theorem NextFetchAt.handlerState {s : State} {b : Nat} (running : s.halted = false)
    (memWf : Memory.wf s.mem = true) (pc : s.pc + 1 ≠ 0x0000)
    (index : memIndex s.cfg (s.pc + 1) = some b) (notData : b ≠ s.cfg.ddrAddr)
    (notStatus : b ≠ s.cfg.dsrAddr) (a : Nat) : NextFetchAt b (handlerState s a) := by
  rw [handlerState_spec]
  exact ⟨running, rfl, memWf, pc, index, notData, notStatus⟩

theorem NextFetchAt.warn {b : Nat} {u : State} (h : NextFetchAt b u) (addr : Word) (a : Nat) :
    NextFetchAt b (u.warn addr a) := by
  rw [State.warn_spec]
  exact { h with }

/-- After the commit of a handler that has stored `v` there, the next cycle fetches `v`. -/
theorem NextFetchAt.fetches_stored {b : Nat} {u : State} (h : NextFetchAt b u) (v : Word) :
    Fetches (u.setWord b v).commit.boundary v := by
  rw [State.boundary_spec]
  exact ⟨Bool.or_eq_false_iff.2 ⟨h.running, decide_eq_false h.pc⟩, h.pc, b, h.index,
    (if_neg h.notStatus).trans (State.word_setWord_same h.memWf b v)⟩

/-- A cycle that ends in a write to the next instruction's word commits, and what is fetched next is
the value written. -/
theorem NextFetchAt.finishCycle_memWrite {b : Nat} {u : State} (h : NextFetchAt b u) (cur : State)
    {addr : Word} (reaches : memIndex u.cfg addr = some b) (v : Word) :
    ∃ t, finishCycle cur (memWrite u addr v) = .next t ∧ t.pc = u.pc ∧ Fetches t v := by
  have warned := h.warn addr b
  refine ⟨_, ?_, ?_, warned.fetches_stored v⟩
  · rw [memWrite_some reaches, State.writeIndex, if_neg warned.notData, if_neg warned.notStatus]
    exact if_neg (by simp [h.committing])
  · simp [State.boundary_spec]

end Sys2Proof.Machine

namespace Sys2Proof.Proofs

open Sys2Proof.Machine

/-- Settles O54: each of the three handlers ends in a write to the word at the incremented PC. -/
theorem storesAreSeenByTheNextFetch : Obligations.StoresAreSeenByTheNextFetch := by
  intro s sr b inv next notData notStatus pc
  obtain ⟨-, memWf, -⟩ := inv
  have atNext (running : s.halted = false) (a : Nat) : NextFetchAt b (handlerState s a) :=
    .handlerState running memWf pc next notData notStatus a
  refine ⟨fun off runs reaches => ?_, fun off p runs pointer reaches => ?_,
    fun base off runs reaches => ?_⟩ <;>
    obtain ⟨running, a, stepped⟩ := step_of_runs runs
  · simpa [stepped, exec_st] using
      (atNext running a).finishCycle_memWrite s (by simpa using reaches) (s.reg sr)
  · rw [stepped, exec_sti_pointer (by simpa using pointer)]
    simpa using ((atNext running a).warn _ p).finishCycle_memWrite s
      (by simpa [loaded_eq_readIndex] using reaches) (s.reg sr)
  · simpa [stepped, exec_str] using
      (atNext running a).finishCycle_memWrite s (by simpa using reaches) (s.reg sr)

end Sys2Proof.Proofs
end

section
/-! The operate instructions (40_operate.md R72 to R77). Decoding: the fields of a word with registers in
`[11:9]` and `[8:6]`, and of the register and immediate forms that `ir[5]` tells apart (30_encoding.md R61
to R63). Meaning: all five end in `setResult`, so they share one frame and differ in the value. -/

namespace Sys2Proof.Machine

/-! ### The fields of a word with two registers (R61, R62) -/

/-- The decoder's register is the one whose three bits stand there. -/
theorem regAt_of_field {w : Word} {lo : Nat} {r : Reg} (h : w.extractLsb' lo 3 = Reg.field r) :
    regAt w lo = r :=
  Fin.ext (congrArg BitVec.toNat h)

section
variable (op : BitVec 4) (r base : Reg) (low : BitVec 6)

@[simp] theorem opcodeOf_wordBase6 : opcodeOf (wordBase6 op r base low) = op := by
  rw [opcodeOf, wordBase6, BitVec.extractLsb'_append_eq_of_le (by decide),
    BitVec.extractLsb'_append_eq_of_le (by decide)]
  exact BitVec.extractLsb'_append_eq_left

@[simp] theorem regAt_nine_wordBase6 : regAt (wordBase6 op r base low) 9 = r := by
  apply regAt_of_field
  rw [wordBase6, BitVec.extractLsb'_append_eq_of_le (by decide),
    BitVec.extractLsb'_append_eq_of_le (by decide)]
  exact BitVec.extractLsb'_append_eq_right

@[simp] theorem regAt_six_wordBase6 : regAt (wordBase6 op r base low) 6 = base := by
  apply regAt_of_field
  rw [wordBase6, BitVec.extractLsb'_append_eq_of_le (by decide)]
  exact BitVec.extractLsb'_append_eq_right

theorem getLsbD_five_wordBase6 : (wordBase6 op r base low).getLsbD 5 = low.getLsbD 5 :=
  BitVec.getLsbD_append

end

/-! ### The register and immediate forms (R63) -/

/-- A word in the register form: selector 0, two ignored bits, SR2. -/
def wordRegisterForm (op : BitVec 4) (dr sr1 sr2 : Reg) (ignored : BitVec 2) : Word :=
  op ++ Reg.field dr ++ Reg.field sr1 ++ 0b0#1 ++ ignored ++ Reg.field sr2

/-- A word in the immediate form: selector 1, imm5. -/
def wordImmediateForm (op : BitVec 4) (dr sr1 : Reg) (imm : BitVec 5) : Word :=
  op ++ Reg.field dr ++ Reg.field sr1 ++ 0b1#1 ++ imm

section
variable (op : BitVec 4) (dr sr1 sr2 : Reg) (ignored : BitVec 2) (imm : BitVec 5)

theorem wordRegisterForm_eq_wordBase6 :
    wordRegisterForm op dr sr1 sr2 ignored =
      wordBase6 op dr sr1 (0b0#1 ++ ignored ++ Reg.field sr2) := by
  rw [wordBase6, BitVec.append_assoc', BitVec.append_assoc']
  rfl

theorem wordImmediateForm_eq_wordBase6 :
    wordImmediateForm op dr sr1 imm = wordBase6 op dr sr1 (0b1#1 ++ imm) := by
  rw [wordBase6, BitVec.append_assoc']
  rfl

theorem opcodeOf_wordRegisterForm : opcodeOf (wordRegisterForm op dr sr1 sr2 ignored) = op := by
  rw [wordRegisterForm_eq_wordBase6, opcodeOf_wordBase6]

theorem opcodeOf_wordImmediateForm : opcodeOf (wordImmediateForm op dr sr1 imm) = op := by
  rw [wordImmediateForm_eq_wordBase6, opcodeOf_wordBase6]

theorem regAt_zero_wordRegisterForm : regAt (wordRegisterForm op dr sr1 sr2 ignored) 0 = sr2 :=
  regAt_of_field BitVec.extractLsb'_append_eq_right

theorem imm5Of_wordImmediateForm : imm5Of (wordImmediateForm op dr sr1 imm) = imm :=
  BitVec.extractLsb'_append_eq_right

theorem selector_wordRegisterForm :
    (wordRegisterForm op dr sr1 sr2 ignored).getLsbD 5 = false := by
  rw [wordRegisterForm_eq_wordBase6, getLsbD_five_wordBase6, BitVec.getLsbD_append,
    BitVec.getLsbD_append]
  rfl

theorem selector_wordImmediateForm : (wordImmediateForm op dr sr1 imm).getLsbD 5 = true := by
  rw [wordImmediateForm_eq_wordBase6, getLsbD_five_wordBase6, BitVec.getLsbD_append]
  rfl

end

/-- How the decoder reads a word of ADD or AND: `ir[5]` selects the form (R63). -/
def readForm (regForm : Reg → Reg → Reg → Instr) (immForm : Reg → Reg → BitVec 5 → Instr)
    (w : Word) : Instr :=
  if w.getLsbD 5 then immForm (regAt w 9) (regAt w 6) (imm5Of w)
  else regForm (regAt w 9) (regAt w 6) (regAt w 0)

section
variable (regForm : Reg → Reg → Reg → Instr) (immForm : Reg → Reg → BitVec 5 → Instr)
variable (op : BitVec 4) (dr sr1 sr2 : Reg) (ignored : BitVec 2) (imm : BitVec 5)

theorem readForm_wordRegisterForm :
    readForm regForm immForm (wordRegisterForm op dr sr1 sr2 ignored) = regForm dr sr1 sr2 := by
  rw [readForm, selector_wordRegisterForm, if_neg Bool.false_ne_true, regAt_zero_wordRegisterForm,
    wordRegisterForm_eq_wordBase6, regAt_nine_wordBase6, regAt_six_wordBase6]

theorem readForm_wordImmediateForm :
    readForm regForm immForm (wordImmediateForm op dr sr1 imm) = immForm dr sr1 imm := by
  rw [readForm, selector_wordImmediateForm, if_pos rfl, imm5Of_wordImmediateForm,
    wordImmediateForm_eq_wordBase6, regAt_nine_wordBase6, regAt_six_wordBase6]

end

/-! ### Decoding by opcode (R59) -/

theorem decode_of_opcode_add {w : Word} (h : opcodeOf w = 0b0001) :
    decode w = readForm .addReg .addImm w := by
  simp [decode, h, readForm]

theorem decode_of_opcode_and {w : Word} (h : opcodeOf w = 0b0101) :
    decode w = readForm .andReg .andImm w := by
  simp [decode, h, readForm]

theorem decode_of_opcode_not {w : Word} (h : opcodeOf w = 0b1001) :
    decode w = .notReg (regAt w 9) (regAt w 6) := by
  simp [decode, h]

theorem decode_not (dr sr : Reg) (ignored : BitVec 6) :
    decode (wordBase6 0b1001 dr sr ignored) = .notReg dr sr := by
  rw [decode_of_opcode_not (opcodeOf_wordBase6 ..), regAt_nine_wordBase6, regAt_six_wordBase6]

/-! ### What the five meanings write -/

/-- From `s` to `t` nothing outside the flags and register `dr` changes, and the flags are those of the
value in `dr`. -/
def OnlyResultWritten (dr : Reg) (s t : State) : Prop :=
  FlagsFrom (t.reg dr) t ∧ SameRegsBut dr s t ∧ t.pc = s.pc ∧ SameOutside s t

theorem onlyResultWritten_setResult (s : State) (dr : Reg) (v : Word) :
    OnlyResultWritten dr s (s.setResult dr v) :=
  ⟨flagsFrom_setResult s dr v, fun _ ne => State.reg_setResult_ne s v ne, rfl,
    sameOutside_setcc (s.setReg dr v) v⟩

end Sys2Proof.Machine

namespace Sys2Proof.Proofs

open Sys2Proof.Machine

theorem add_sext {n : Nat} (hn : n ≤ 16) (x : Word) (v : BitVec n) :
    x + sext v = BitVec.ofInt 16 (x.toNat + v.toInt) := by
  rw [BitVec.ofInt_add, BitVec.ofInt_natCast, BitVec.ofNat_toNat, BitVec.setWidth_eq,
    ← toInt_sext hn, BitVec.ofInt_toInt]

/-- The top bit of the field stands in for every bit above it. -/
theorem getLsbD_sext {n k : Nat} (v : BitVec n) (inside : k < 16) :
    (sext v).getLsbD k = v.getLsbD (min k (n - 1)) := by
  rw [sext, BitVec.getLsbD_signExtend, BitVec.msb_eq_getLsbD_last]
  by_cases field : k < n
  · simp [field, inside, show min k (n - 1) = k by omega]
  · simp [field, inside, show min k (n - 1) = n - 1 by omega]

/-- Settles O10: the sum of two words is the word of their values' sum. -/
theorem addRegisterFormAddsModulo65536 : Obligations.AddRegisterFormAddsModulo65536 := by
  refine ⟨fun dr sr1 sr2 ignored => ?_, fun dr sr1 sr2 s =>
    ⟨s.setResult dr (s.reg sr1 + s.reg sr2), rfl, ?_, onlyResultWritten_setResult s dr _⟩⟩
  · exact (decode_of_opcode_add (opcodeOf_wordRegisterForm ..)).trans (readForm_wordRegisterForm ..)
  · rw [State.reg_setResult_same, BitVec.add_def]

/-- Settles O11: the extended field has the field's signed value. -/
theorem addImmediateFormAddsTheSignedField : Obligations.AddImmediateFormAddsTheSignedField := by
  refine ⟨fun dr sr1 imm => ?_, fun dr sr1 imm s =>
    ⟨s.setResult dr (s.reg sr1 + sext imm), rfl, ?_, onlyResultWritten_setResult s dr _⟩⟩
  · exact (decode_of_opcode_add (opcodeOf_wordImmediateForm ..)).trans
      (readForm_wordImmediateForm ..)
  · rw [State.reg_setResult_same, add_sext (by decide)]

/-- Settles O12: a bit of the conjunction is the conjunction of the bits. -/
theorem andRegisterFormAndsBitByBit : Obligations.AndRegisterFormAndsBitByBit := by
  refine ⟨fun dr sr1 sr2 ignored => ?_, fun dr sr1 sr2 s =>
    ⟨s.setResult dr (s.reg sr1 &&& s.reg sr2), rfl, fun k _ => ?_,
      onlyResultWritten_setResult s dr _⟩⟩
  · exact (decode_of_opcode_and (opcodeOf_wordRegisterForm ..)).trans (readForm_wordRegisterForm ..)
  · rw [State.reg_setResult_same, BitVec.getLsbD_and]

/-- Settles O13: above bit 4 the extended field repeats it. -/
theorem andImmediateFormAndsTheExtendedField :
    Obligations.AndImmediateFormAndsTheExtendedField := by
  refine ⟨fun dr sr1 imm => ?_, fun dr sr1 imm s =>
    ⟨s.setResult dr (s.reg sr1 &&& sext imm), rfl, fun k inside => ?_,
      onlyResultWritten_setResult s dr _⟩⟩
  · exact (decode_of_opcode_and (opcodeOf_wordImmediateForm ..)).trans
      (readForm_wordImmediateForm ..)
  · rw [State.reg_setResult_same, BitVec.getLsbD_and, getLsbD_sext imm inside]

/-- Settles O14: inside the word, a bit of the complement is the bit's negation. -/
theorem notComplementsEveryBit : Obligations.NotComplementsEveryBit := by
  refine ⟨decode_not, fun dr sr s =>
    ⟨s.setResult dr (~~~ s.reg sr), rfl, fun k inside => ?_, onlyResultWritten_setResult s dr _⟩⟩
  rw [State.reg_setResult_same, BitVec.getLsbD_not, decide_eq_true inside, Bool.true_and]

end Sys2Proof.Proofs
end

section
/-! The loads, the stores and LEA (41_data_movement.md R78 to R85). Decoding: the fields of a word with
one register and a nine-bit offset (format PC9, 30_encoding.md R61, R62). Meaning: a read only adds to
the reports, so a load is a `setResult`, and a store a `writeIndex`, in the old state with the reports
of its accesses. -/

namespace Sys2Proof.Machine

/-! ### The fields of the words (R61, R62) -/

section
variable (op : BitVec 4) (r base : Reg) (off9 : BitVec 9) (off6 : BitVec 6)

@[simp] theorem opcodeOf_wordPc9 : opcodeOf (wordPc9 op r off9) = op := by
  rw [opcodeOf, wordPc9, BitVec.extractLsb'_append_eq_of_le (by decide)]
  exact BitVec.extractLsb'_append_eq_left

@[simp] theorem regAt_nine_wordPc9 : regAt (wordPc9 op r off9) 9 = r := by
  apply regAt_of_field
  rw [wordPc9, BitVec.extractLsb'_append_eq_of_le (by decide)]
  exact BitVec.extractLsb'_append_eq_right

@[simp] theorem off9Of_wordPc9 : off9Of (wordPc9 op r off9) = off9 :=
  BitVec.extractLsb'_append_eq_right

@[simp] theorem off6Of_wordBase6 : off6Of (wordBase6 op r base off6) = off6 :=
  BitVec.extractLsb'_append_eq_right

/-! ### Decoding by opcode (R59) -/

theorem decode_ld : decode (wordPc9 0b0010 r off9) = .ld r off9 := by simp [decode]

theorem decode_ldi : decode (wordPc9 0b1010 r off9) = .ldi r off9 := by simp [decode]

theorem decode_ldr : decode (wordBase6 0b0110 r base off6) = .ldr r base off6 := by simp [decode]

theorem decode_lea : decode (wordPc9 0b1110 r off9) = .lea r off9 := by simp [decode]

theorem decode_st : decode (wordPc9 0b0011 r off9) = .st r off9 := by simp [decode]

theorem decode_sti : decode (wordPc9 0b1011 r off9) = .sti r off9 := by simp [decode]

theorem decode_str : decode (wordBase6 0b0111 r base off6) = .str r base off6 := by simp [decode]

end

/-! ### The reports of one and of two accesses (20_memory.md R38) -/

/-- The state with its reports replaced. -/
def State.withReports (s : State) (reports : List Report) : State := { s with reports := reports }

theorem warn_eq_withReports (s : State) (addr : Word) (a : Nat) :
    s.warn addr a = s.withReports (s.reports ++ warnings s addr a) :=
  warn_eq_warnings s addr a

/-- The second access warns as it would in the first state, after the first warning. -/
theorem warn_warn_eq_withReports (s : State) (addr addr' : Word) (a b : Nat) :
    (s.warn addr a).warn addr' b =
      s.withReports (s.reports ++ warnings s addr a ++ warnings s addr' b) := by
  rw [warn_eq_withReports, warn_eq_withReports]
  rfl

/-! ### What a load writes (R79 to R81) -/

/-- From `s` to `t` register `dr` takes `v`, the flags are those of `v`, the reports are `reports`, and
nothing else changes. -/
def LoadEffect (dr : Reg) (v : Word) (reports : List Report) (s t : State) : Prop :=
  t.reg dr = v ∧ FlagsFrom v t ∧ SameRegsBut dr s t ∧ t.pc = s.pc ∧ SameButReports s t ∧
    t.reports = reports

theorem loadEffect_setResult (s : State) (reports : List Report) (dr : Reg) (v : Word) :
    LoadEffect dr v reports s ((s.withReports reports).setResult dr v) := by
  obtain ⟨-, regs, pc, mem, spc, out, reported, input, engine⟩ :=
    onlyResultWritten_setResult (s.withReports reports) dr v
  exact ⟨State.reg_setResult_same _ dr v, flagsFrom_setcc _ v, regs, pc,
    ⟨mem, spc, out, input, engine⟩, reported⟩

/-! ### What a store writes (20_memory.md R35 to R37) -/

theorem putsBytes_eq_crBytes (c : Config) (v : Word) :
    putsBytes c v = crBytes c.crlfAll (v.setWidth 8) := by
  rw [putsBytes, crBytes_eq, lowByte_eq_setWidth]

theorem storeEffect_writeIndex {s : State} (memWf : Memory.wf s.mem = true) (a : Nat) (v : Word) :
    StoreEffect a v s (s.writeIndex a v) := by
  obtain ⟨data, e⟩ | ⟨notData, status, e⟩ | ⟨notData, notStatus, e⟩ :=
    State.writeIndex_spec s a v <;> rw [e]
  · rw [putsBytes_eq_crBytes]
    exact ⟨fun _ _ => rfl, fun _ => ⟨rfl, rfl⟩, (absurd data ·), (absurd data ·), (absurd data ·)⟩
  · exact ⟨fun _ _ => rfl, (absurd · notData), fun _ => rfl, fun _ _ => rfl,
      fun _ notStatus => absurd status notStatus⟩
  · exact ⟨fun _ ne => State.word_setWord_ne s v ne, (absurd · notData), fun _ => rfl,
      fun _ status => absurd status notStatus, fun _ _ => State.word_setWord_same memWf a v⟩

/-- Nothing but the memory, the console output and the reports may differ, and the reports are
`reports`: the frame of the stores. -/
def StoreFrame (reports : List Report) (s t : State) : Prop :=
  SameRegs s t ∧ SameFlags s t ∧ t.pc = s.pc ∧ t.spc = s.spc ∧ SameInput s t ∧ SameEngine s t ∧
    t.reports = reports

theorem storeFrame_update (s : State) (mem : Memory) (out : List Byte) (reports : List Report) :
    StoreFrame reports s { s with mem := mem, consoleOut := out, reports := reports } :=
  ⟨fun _ => rfl, ⟨rfl, rfl, rfl⟩, rfl, rfl, ⟨rfl, rfl, rfl⟩, ⟨rfl, rfl, rfl, rfl, rfl⟩, rfl⟩

theorem storeFrame_writeIndex (s : State) (reports : List Report) (a : Nat) (v : Word) :
    StoreFrame reports s ((s.withReports reports).writeIndex a v) := by
  obtain ⟨_, e⟩ | ⟨_, _, e⟩ | ⟨_, _, e⟩ := State.writeIndex_spec (s.withReports reports) a v <;>
    rw [e] <;> exact storeFrame_update s _ _ reports

/-- A store's effect and frame, after accesses that have left `reports`. -/
theorem stored_writeIndex {s : State} (memWf : Memory.wf s.mem = true) (reports : List Report)
    (a : Nat) (v : Word) :
    StoreEffect a v s ((s.withReports reports).writeIndex a v) ∧
      StoreFrame reports s ((s.withReports reports).writeIndex a v) :=
  ⟨storeEffect_writeIndex (s := s.withReports reports) memWf a v,
    storeFrame_writeIndex s reports a v⟩

end Sys2Proof.Machine

namespace Sys2Proof.Proofs

open Sys2Proof.Machine

/-- Settles O15: LD ends in `setResult` after one warning. -/
theorem ldLoadsThePcRelativeWord : Obligations.LdLoadsThePcRelativeWord := by
  refine ⟨decode_ld, fun dr off s a index => ⟨_, exec_ld_some index dr, ?_⟩⟩
  rw [warn_eq_withReports]
  exact loadEffect_setResult s _ dr _

/-- Settles O16: LDI ends in `setResult` after the warnings of its two reads, in their order. -/
theorem ldiLoadsThroughThePointer : Obligations.LdiLoadsThroughThePointer := by
  refine ⟨decode_ldi, fun dr off s a b index pointed => ⟨_, exec_ldi_some index pointed dr, ?_⟩⟩
  rw [warn_warn_eq_withReports]
  exact loadEffect_setResult s _ dr _

/-- Settles O17: LDR ends in `setResult` after one warning; its address is taken in the old state. -/
theorem ldrLoadsTheBaseOffsetWord : Obligations.LdrLoadsTheBaseOffsetWord := by
  refine ⟨decode_ldr, fun dr base off s a index => ⟨_, exec_ldr_some index dr, ?_⟩⟩
  rw [warn_eq_withReports]
  exact loadEffect_setResult s _ dr _

/-- Settles O18: LEA is one register write, of the exact sum taken mod 2^16. -/
theorem leaWritesTheFullSumAndNoFlag : Obligations.LeaWritesTheFullSumAndNoFlag := by
  refine ⟨decode_lea, fun dr off s => ⟨s.setReg dr (pcRelative s.pc off), rfl, ?_,
    fun _ ne => State.reg_setReg_ne s _ ne, ⟨rfl, rfl, rfl⟩, rfl, fun _ => rfl, rfl, rfl, rfl,
    ⟨rfl, rfl, rfl⟩, ⟨rfl, rfl, rfl, rfl, rfl⟩⟩⟩
  rw [State.reg_setReg_same, pcRelative, add_sext (by decide)]

/-- Settles O19: ST ends in `writeIndex` after one warning. -/
theorem stStoresAtThePcRelativeWord : Obligations.StStoresAtThePcRelativeWord := by
  refine ⟨decode_st, fun sr off s a memWf index => ⟨_, exec_st_some index sr, ?_⟩⟩
  rw [warn_eq_withReports]
  exact stored_writeIndex memWf _ a _

/-- Settles O20: STI ends in `writeIndex` after the warnings of its read and its write, in their
order. -/
theorem stiStoresThroughThePointer : Obligations.StiStoresThroughThePointer := by
  refine ⟨decode_sti, fun sr off s a b memWf index pointed =>
    ⟨_, exec_sti_some index pointed sr, ?_⟩⟩
  rw [warn_warn_eq_withReports]
  exact stored_writeIndex memWf _ b _

/-- Settles O21: STR ends in `writeIndex` after one warning. -/
theorem strStoresAtTheBaseOffsetWord : Obligations.StrStoresAtTheBaseOffsetWord := by
  refine ⟨decode_str, fun sr base off s a memWf index => ⟨_, exec_str_some index sr, ?_⟩⟩
  rw [warn_eq_withReports]
  exact stored_writeIndex memWf _ a _

end Sys2Proof.Proofs
end

section
/-! Control transfer (42_control.md R86 to R92). Decoding: the fields of the words of BR, JMP, JSR and
RTI (30_encoding.md R61, R63, R66, R69). Meaning: a branch or jump writes the PC alone, a call is a push
followed by the link and the jump, and RTI a pop followed by the jump. -/

namespace Sys2Proof.Machine

/-! ### Decoding (R59, R63, R66) -/

theorem decode_of_opcode_br {w : Word} (h : opcodeOf w = 0b0000) :
    decode w = .br (w.getLsbD 11) (w.getLsbD 10) (w.getLsbD 9) (off9Of w) := by
  rw [decode, h]; rfl

theorem decode_of_opcode_call {w : Word} (h : opcodeOf w = 0b0100) :
    decode w = if w.getLsbD 11 then .jsr (off11Of w) else .jsrr (regAt w 6) := by
  rw [decode, h]; rfl

theorem decode_of_opcode_rti {w : Word} (h : opcodeOf w = 0b1000) : decode w = .rti := by
  rw [decode, h]; rfl

section
variable (n z p : Bool) (off : BitVec 9)

theorem opcodeOf_encode_br : opcodeOf (encode (.br n z p off)) = 0b0000 := by
  rw [opcodeOf, encode, BitVec.extractLsb'_append_eq_of_le (by decide),
    BitVec.extractLsb'_append_eq_of_le (by decide), BitVec.extractLsb'_append_eq_of_le (by decide)]
  exact BitVec.extractLsb'_append_eq_left

theorem getLsbD_eleven_encode_br : (encode (.br n z p off)).getLsbD 11 = n := by
  rw [encode, BitVec.getLsbD_append, BitVec.getLsbD_append, BitVec.getLsbD_append,
    BitVec.getLsbD_append]
  exact BitVec.getLsbD_ofBool n 0

theorem getLsbD_ten_encode_br : (encode (.br n z p off)).getLsbD 10 = z := by
  rw [encode, BitVec.getLsbD_append, BitVec.getLsbD_append, BitVec.getLsbD_append]
  exact BitVec.getLsbD_ofBool z 0

theorem getLsbD_nine_encode_br : (encode (.br n z p off)).getLsbD 9 = p := by
  rw [encode, BitVec.getLsbD_append, BitVec.getLsbD_append]
  exact BitVec.getLsbD_ofBool p 0

theorem off9Of_encode_br : off9Of (encode (.br n z p off)) = off :=
  BitVec.extractLsb'_append_eq_right

theorem decode_encode_br : decode (encode (.br n z p off)) = .br n z p off := by
  rw [decode_of_opcode_br (opcodeOf_encode_br ..), getLsbD_eleven_encode_br,
    getLsbD_ten_encode_br, getLsbD_nine_encode_br, off9Of_encode_br]

end

/-- The ignored bits `[11:9]` are where other forms have a register. -/
theorem decode_jmp (ignored3 : BitVec 3) {base : Reg} (ignored6 : BitVec 6) (ne : base ≠ 7) :
    decode (wordBase6 0b1100 ignored3.toFin base ignored6) = .jmp base := by
  simp [decode, ne]

section
variable (off : BitVec 11)

theorem opcodeOf_encode_jsr : opcodeOf (encode (.jsr off)) = 0b0100 := by
  rw [opcodeOf, encode, BitVec.extractLsb'_append_eq_of_le (by decide)]
  exact BitVec.extractLsb'_append_eq_left

theorem getLsbD_eleven_encode_jsr : (encode (.jsr off)).getLsbD 11 = true :=
  BitVec.getLsbD_append

theorem off11Of_encode_jsr : off11Of (encode (.jsr off)) = off := BitVec.extractLsb'_append_eq_right

theorem decode_encode_jsr : decode (encode (.jsr off)) = .jsr off := by
  rw [decode_of_opcode_call (opcodeOf_encode_jsr off), if_pos (getLsbD_eleven_encode_jsr off),
    off11Of_encode_jsr]

end

theorem decode_rti (ignored : BitVec 12) : decode (0b1000#4 ++ ignored) = .rti :=
  decode_of_opcode_rti BitVec.extractLsb'_append_eq_left

/-! ### Branches and jumps (R87, R88) -/

/-- Nothing but the PC may differ: the frame of the branches and jumps. -/
def SameButPc (s t : State) : Prop := SameRegs s t ∧ SameFlags s t ∧ SameOutside s t

theorem sameButPc_setPc (s : State) (v : Word) : SameButPc s (s.setPc v) :=
  ⟨fun _ => rfl, ⟨rfl, rfl, rfl⟩, fun _ => rfl, rfl, rfl, rfl, ⟨rfl, rfl, rfl⟩,
    ⟨rfl, rfl, rfl, rfl, rfl⟩⟩

theorem sameButPc_refl (s : State) : SameButPc s s := sameButPc_setPc s s.pc

theorem branchTaken_iff (s : State) (n z p : Bool) :
    s.branchTaken n z p = true ↔
      (n = true ∧ s.n = true) ∨ (z = true ∧ s.z = true) ∨ (p = true ∧ s.p = true) := by
  simp only [State.branchTaken, Bool.or_eq_true, Bool.and_eq_true, or_assoc]

theorem exec_br_taken {s : State} {n z p : Bool} (taken : s.branchTaken n z p = true)
    (off : BitVec 9) : exec (.br n z p off) s = .next (s.setPc (pcRelative s.pc off)) := by
  rw [exec, execBr, if_pos taken]

theorem exec_br_not_taken {s : State} {n z p : Bool} (notTaken : ¬ s.branchTaken n z p = true)
    (off : BitVec 9) : exec (.br n z p off) s = .next s := by
  rw [exec, execBr, if_neg notTaken]

/-! ### Calls (R90, R91) -/

/-- What a call to `target` does: the push of the return address, the link in R7, the jump. -/
def CallEffect (target : Word) (s t : State) : Prop :=
  PushEffect s.pc s t ∧ t.reg 7 = s.pc ∧ t.pc = target ∧ SameRegsBut 7 s t ∧ SameFlags s t ∧
    t.consoleOut = s.consoleOut ∧ SameInput s t ∧ SameEngine s t

theorem callEffect_of_callTo {s t : State} {target : Word} (memWf : Memory.wf s.mem = true)
    (h : callTo s target = .next t) : CallEffect target s t := by
  have regs := sameRegsBut_of_callTo h
  cases h
  obtain ⟨-, flags, -, out, input, engine⟩ := sameButCallStack_stackPush s s.pc
  exact ⟨pushEffect_stackPush memWf s.pc, State.reg_setReg_same _ 7 s.pc, rfl, regs, flags, out,
    input, engine⟩

end Sys2Proof.Machine

namespace Sys2Proof.Proofs

open Sys2Proof.Machine

theorem pcRelative_eq_ofInt {n : Nat} (hn : n ≤ 16) (pc : Word) (off : BitVec n) :
    pcRelative pc off = BitVec.ofInt 16 (pc.toNat + off.toInt) :=
  add_sext hn pc off

/-- Settles O26: JSR is a call, to the exact sum taken mod 2^16. -/
theorem jsrPushesLinksAndJumps : Obligations.JsrPushesLinksAndJumps := by
  refine ⟨decode_encode_jsr, fun off s memWf => ⟨_, exec_jsr off s, ?_⟩⟩
  rw [← pcRelative_eq_ofInt (by decide)]
  exact callEffect_of_callTo memWf (exec_jsr off s)

/-- Settles O28: the jump after the pop writes the PC alone. -/
theorem rtiPopsIntoThePcOnly : Obligations.RtiPopsIntoThePcOnly := by
  refine ⟨decode_rti, fun s => ⟨_, s.stackPop.1, exec_rti s, ?_⟩⟩
  obtain ⟨regs, flags, -, out, input, engine⟩ := sameButCallStack_stackPop s
  exact ⟨popEffect_stackPop s, rfl, regs, flags, out, input, engine⟩

/-- Settles O23: a branch that is taken jumps to the exact sum taken mod 2^16; one that is not changes
nothing. -/
theorem brBranchesOnARequestedSetFlag : Obligations.BrBranchesOnARequestedSetFlag := by
  refine ⟨decode_encode_br, fun n z p off s => ?_⟩
  rw [← branchTaken_iff]
  by_cases taken : s.branchTaken n z p = true
  · exact ⟨_, exec_br_taken taken off, fun _ => pcRelative_eq_ofInt (by decide) s.pc off,
      (absurd taken ·), sameButPc_setPc s _⟩
  · exact ⟨s, exec_br_not_taken taken off, (absurd · taken), fun _ => rfl, sameButPc_refl s⟩

/-- Settles O24: a base other than R7 makes a well-formed JMP, which is one write of the PC. -/
theorem jmpGoesToTheBaseRegister : Obligations.JmpGoesToTheBaseRegister :=
  ⟨fun ignored3 _ ignored6 ne => decode_jmp ignored3 ignored6 ne, fun _ s ne =>
    ⟨_, exec_jmp_of_wf (decide_eq_true ne) s, rfl, sameButPc_setPc s _⟩⟩

end Sys2Proof.Proofs
end

section
/-! Noninterference of the write-only state (60_exceptions.md R107, 10_state.md R22 and R24, 20_memory.md
R38). The rest of the state is the part that rules read; an operation ignores the write-only state when
the readable part of its outcome is settled by the readable part of the state it starts from. -/

namespace Sys2Proof.Machine

/-! ### The part of the state that rules read -/

/-- The state with what no rule reads put away, as `eraseWriteOnly` does with a result's next state. -/
def State.readPart (s : State) : State :=
  { s with reports := [], loadFloor := none, counter := 0, ir := 0, consoleOut := [],
           inputConsumed := [] }

/-- The outcome depends on the part that rules read alone, up to the write-only state. -/
def IgnoresWriteOnly (f : State → Result) : Prop :=
  ∀ s, eraseWriteOnly (f s.readPart) = eraseWriteOnly (f s)

theorem eraseWriteOnly_next (t : State) : eraseWriteOnly (.next t) = .next t.readPart := rfl

/-- Two states with one readable part have the same outcome, up to the write-only state. -/
theorem IgnoresWriteOnly.congr {f : State → Result} (ignores : IgnoresWriteOnly f) {s t : State}
    (same : s.readPart = t.readPart) : eraseWriteOnly (f s) = eraseWriteOnly (f t) := by
  rw [← ignores s, same, ignores t]

section
variable (s : State)

@[simp] theorem State.readPart_cfg : s.readPart.cfg = s.cfg := rfl
@[simp] theorem State.readPart_pc : s.readPart.pc = s.pc := rfl
@[simp] theorem State.readPart_halted : s.readPart.halted = s.halted := rfl
@[simp] theorem State.readPart_waiting : s.readPart.waiting = s.waiting := rfl
@[simp] theorem State.readPart_inputPending : s.readPart.inputPending = s.inputPending := rfl
@[simp] theorem State.readPart_readIndex (a : Nat) : s.readPart.readIndex a = s.readIndex a := rfl
@[simp] theorem State.readPart_readPart : s.readPart.readPart = s.readPart := rfl

@[simp] theorem readPart_setReg (r : Reg) (v : Word) :
    (s.setReg r v).readPart = s.readPart.setReg r v := rfl
@[simp] theorem readPart_setPc (v : Word) : (s.setPc v).readPart = s.readPart.setPc v := rfl

/-! ### Warnings and console output write nothing that is read -/

@[simp] theorem readPart_warn (addr : Word) (a : Nat) : (s.warn addr a).readPart = s.readPart := by
  rw [State.warn_spec]; rfl

@[simp] theorem readPart_consolePutCr (translate : Bool) (b : Byte) :
    (s.consolePutCr translate b).readPart = s.readPart := by
  rw [State.consolePutCr_spec]; rfl

theorem readPart_putsWord (w : Word) : (putsWord s w).readPart = s.readPart := by
  rw [putsWord_spec]; rfl

theorem readPart_putspWord (w : Word) : (putspWord s w).readPart = s.readPart := by
  rw [putspWord_spec]; rfl

/-! ### The memory interface and the call stack -/

/-- What a write leaves to be read: the word stored, where it stores one. -/
theorem readPart_writeIndex (a : Nat) (v : Word) :
    (s.writeIndex a v).readPart =
      if a = s.cfg.ddrAddr ∨ a = s.cfg.dsrAddr then s.readPart else s.readPart.setWord a v := by
  obtain ⟨data, e⟩ | ⟨_, status, e⟩ | ⟨notData, notStatus, e⟩ := State.writeIndex_spec s a v <;> rw [e]
  · rw [if_pos (.inl data)]; rfl
  · rw [if_pos (.inr status)]
  · rw [if_neg (not_or.2 ⟨notData, notStatus⟩)]; rfl

/-- What a push leaves to be read: the entry, where there is room for it. -/
theorem stackPush_readPart (v : Word) :
    (s.readPart.stackPush v).readPart = (s.stackPush v).readPart := by
  by_cases full : s.spc ≤ s.cfg.stackLimit
  · rw [State.stackPush_full full, State.stackPush_full (s := s.readPart) full]; rfl
  · have room := Nat.not_le.1 full
    rw [State.stackPush_room room, State.stackPush_room (s := s.readPart) room]; rfl

/-- A pop yields the same value, and leaves the same to be read. -/
theorem stackPop_readPart :
    s.readPart.stackPop.1 = s.stackPop.1 ∧ s.readPart.stackPop.2.readPart = s.stackPop.2.readPart := by
  by_cases empty : s.spc = s.cfg.stackTop
  · rw [State.stackPop_empty empty, State.stackPop_empty (s := s.readPart) empty]; exact ⟨rfl, rfl⟩
  · rw [State.stackPop_entry empty, State.stackPop_entry (s := s.readPart) empty]; exact ⟨rfl, rfl⟩

end

theorem ignoresWriteOnly_memWrite (addr v : Word) : IgnoresWriteOnly (memWrite · addr v) := by
  intro s
  dsimp only
  cases index : memIndex s.cfg addr with
  | none => rw [memWrite_none index, memWrite_none (s := s.readPart) index]
  | some a =>
    rw [memWrite_some index, memWrite_some (s := s.readPart) index]
    simp only [eraseWriteOnly_next, readPart_writeIndex, readPart_warn, State.warn_cfg,
      State.readPart_cfg, State.readPart_readPart]

/-- A read ignores the write-only state where what follows it does. -/
theorem ignoresWriteOnly_readThen (addr : Word) {next : Word → State → Result}
    (ignores : ∀ w, IgnoresWriteOnly (next w)) : IgnoresWriteOnly (readThen · addr next) := by
  intro s
  dsimp only
  cases index : memIndex s.cfg addr with
  | none => rw [readThen_none index, readThen_none (s := s.readPart) index]
  | some a =>
    rw [readThen_some index, readThen_some (s := s.readPart) index, State.readPart_readIndex]
    exact (ignores _).congr (by simp)

/-! ### The shared services and transfers -/

theorem ignoresWriteOnly_setResult (dr : Reg) (v : Word) :
    IgnoresWriteOnly fun s => .next (s.setResult dr v) := fun _ => rfl

theorem ignoresWriteOnly_returnJump : IgnoresWriteOnly returnJump := by
  intro s
  obtain ⟨value, left⟩ := stackPop_readPart s
  simp only [returnJump, eraseWriteOnly_next, readPart_setPc, readPart_setReg, value, left]

theorem ignoresWriteOnly_callTo (target : Word) : IgnoresWriteOnly (callTo · target) := by
  intro s
  simp only [callTo, eraseWriteOnly_next, readPart_setPc, readPart_setReg, State.readPart_pc,
    stackPush_readPart]

theorem ignoresWriteOnly_charInput : IgnoresWriteOnly charInput := by
  intro s
  unfold charInput
  rw [State.readPart_inputPending, State.readPart_cfg]
  cases s.inputPending with
  | nil => rfl
  | cons c rest => dsimp only; split_ifs <;> rfl

theorem ignoresWriteOnly_charOutput : IgnoresWriteOnly charOutput := by
  intro s
  simp only [charOutput, eraseWriteOnly_next, readPart_consolePutCr, State.readPart_readPart]

/-- A string walk ignores the write-only state where the output of one word leaves what is read. -/
theorem ignoresWriteOnly_stringWalk {emit : State → Word → State}
    (emits : ∀ u w, (emit u w).readPart = u.readPart) (fuel : Nat) (addr : Word) :
    IgnoresWriteOnly (stringWalk emit fuel addr) := by
  induction fuel generalizing addr with
  | zero => exact fun _ => rfl
  | succ fuel ih =>
    intro s
    rw [stringWalk, stringWalk, State.readPart_cfg]
    cases memIndex s.cfg addr with
    | none => rfl
    | some a =>
      dsimp only
      rw [State.readPart_readIndex]
      split_ifs
      · simp only [eraseWriteOnly_next, readPart_warn, State.readPart_readPart]
      · exact (ih _).congr (by simp only [emits, readPart_warn, State.readPart_readPart])

theorem ignoresWriteOnly_putString : IgnoresWriteOnly putString := fun s =>
  ignoresWriteOnly_stringWalk readPart_putsWord memWords (s.reg 0) s

theorem ignoresWriteOnly_putPackedString : IgnoresWriteOnly putPackedString := fun s =>
  ignoresWriteOnly_stringWalk readPart_putspWord memWords (s.reg 0) s

theorem ignoresWriteOnly_execTrap (vec : BitVec 8) : IgnoresWriteOnly (execTrap vec) := by
  intro s
  unfold execTrap
  split_ifs
  · exact ignoresWriteOnly_charInput s
  · exact ignoresWriteOnly_charOutput s
  · exact ignoresWriteOnly_putString s
  · exact ignoresWriteOnly_charInput s
  · exact ignoresWriteOnly_putPackedString s
  · rfl
  · rfl

/-! ### The instructions and the cycle -/

theorem ignoresWriteOnly_exec (i : Instr) : IgnoresWriteOnly (exec i) := by
  intro s
  cases i with
  | addReg | addImm | andReg | andImm | notReg | lea | unassigned | halt => rfl
  | br n z p off =>
    by_cases taken : s.branchTaken n z p = true
    · rw [exec_br_taken taken, exec_br_taken (s := s.readPart) taken]; rfl
    · rw [exec_br_not_taken taken, exec_br_not_taken (s := s.readPart) taken]; rfl
  | ld dr | ldr dr => exact ignoresWriteOnly_readThen _ (ignoresWriteOnly_setResult dr) s
  | ldi dr =>
    exact ignoresWriteOnly_readThen _
      (fun ptr => ignoresWriteOnly_readThen ptr (ignoresWriteOnly_setResult dr)) s
  | st | str => exact ignoresWriteOnly_memWrite _ _ s
  | sti sr =>
    exact ignoresWriteOnly_readThen _ (fun ptr => ignoresWriteOnly_memWrite ptr (s.reg sr)) s
  | jsr | jsrr => exact ignoresWriteOnly_callTo _ s
  | ret => exact ignoresWriteOnly_returnJump s
  | rti =>
    obtain ⟨value, left⟩ := stackPop_readPart s
    simp only [exec_rti, eraseWriteOnly_next, readPart_setPc, value, left]
  | jmp base =>
    simp only [exec, execJmp]
    split_ifs
    · exact ignoresWriteOnly_returnJump s
    · rfl
  | trap vec => exact ignoresWriteOnly_execTrap vec s
  | getc | inChar => exact ignoresWriteOnly_charInput s
  | out => exact ignoresWriteOnly_charOutput s
  | puts => exact ignoresWriteOnly_putString s
  | putsp => exact ignoresWriteOnly_putPackedString s

/-- The fetch hands every handler the same readable part: it writes IR and the reports beside it. -/
theorem readPart_handlerState (s : State) (a : Nat) :
    (handlerState s.readPart a).readPart = (handlerState s a).readPart := by
  rw [handlerState_spec, handlerState_spec]; rfl

/-- Halt detection reads the PC and writes the halted flag, both of which are read. -/
theorem readPart_boundary (s : State) : s.boundary.readPart = s.readPart.boundary := by
  rw [State.boundary_spec, State.boundary_spec]; rfl

theorem finishCycle_of_waiting {t : State} (waits : t.waiting = true) (cur : State) :
    finishCycle cur (.next t) = .next (cur.dropLatch t) := if_pos waits

theorem finishCycle_of_not_waiting {t : State} (free : ¬ t.waiting = true) (cur : State) :
    finishCycle cur (.next t) = .next t.commit.boundary := if_neg free

/-- How a cycle ends is settled by what is read of the state it began in and of its handler's answer. -/
theorem eraseWriteOnly_finishCycle (cur : State) (r : Result) :
    eraseWriteOnly (finishCycle cur r) =
      eraseWriteOnly (finishCycle cur.readPart (eraseWriteOnly r)) := by
  cases r with
  | fault | refused => rfl
  | next t =>
    rw [eraseWriteOnly_next]
    by_cases waits : t.waiting = true
    · rw [finishCycle_of_waiting waits, finishCycle_of_waiting (t := t.readPart) waits]; rfl
    · rw [finishCycle_of_not_waiting waits, finishCycle_of_not_waiting (t := t.readPart) waits,
        eraseWriteOnly_next, eraseWriteOnly_next, readPart_boundary, readPart_boundary]
      rfl

theorem cycle_none {s : State} (h : memIndex s.cfg s.pc = none) :
    cycle s = .refused (.outOfRange s.pc) :=
  readThen_none h _

theorem ignoresWriteOnly_cycle : IgnoresWriteOnly cycle := by
  intro s
  cases index : memIndex s.cfg s.pc with
  | none => rw [cycle_none index, cycle_none (s := s.readPart) index, State.readPart_pc]
  | some a =>
    have handled := (ignoresWriteOnly_exec (decode (s.readIndex a))).congr (readPart_handlerState s a)
    rw [cycle_some index, cycle_some (s := s.readPart) index, State.readPart_readIndex,
      eraseWriteOnly_finishCycle, handled, State.readPart_readPart, ← eraseWriteOnly_finishCycle]

theorem ignoresWriteOnly_step : IgnoresWriteOnly step := by
  intro s
  unfold step runOne
  rw [State.readPart_halted, State.readPart_pc]
  split_ifs
  · rfl
  · rw [eraseWriteOnly_next, eraseWriteOnly_next, readPart_boundary, readPart_boundary]; rfl
  · exact ignoresWriteOnly_cycle s

end Sys2Proof.Machine

namespace Sys2Proof.Proofs

open Sys2Proof.Machine

/-- Settles O57: the two states have one readable part, and a step ignores the rest. -/
theorem writeOnlyStateIsNeverRead : Obligations.WriteOnlyStateIsNeverRead :=
  fun _ _ _ _ _ _ _ => ignoresWriteOnly_step.congr rfl

end Sys2Proof.Proofs
end

section
/-! Decoding and encoding (30_encoding.md R57 to R66, R69). Decoding reads the fields of a word by
its opcode and selector bits, and a word is put together from the fields its format names; so the
canonical word decodes to its instruction, and differs from any other word of it in ignored bits
alone. -/

namespace Sys2Proof.Machine

/-! ### The remaining formats (R61, R66; 43_trap.md R96) -/

theorem wordBase6_register (op : BitVec 4) (dr sr1 sr2 : Reg) :
    wordBase6 op dr sr1 (0#3 ++ Reg.field sr2) = wordRegisterForm op dr sr1 sr2 0 := by
  have low : 0#3 ++ Reg.field sr2 = 0b0#1 ++ 0#2 ++ Reg.field sr2 := by revert sr2; decide
  rw [wordRegisterForm_eq_wordBase6, low]
  rfl

theorem getLsbD_eleven_wordBase6 (op : BitVec 4) (r base : Reg) (low : BitVec 6) :
    (wordBase6 op r base low).getLsbD 11 = (Reg.field r).getLsbD 2 := by
  rw [wordBase6, BitVec.getLsbD_append, BitVec.getLsbD_append, BitVec.getLsbD_append]
  rfl

theorem decode_jsrr {r : Reg} (selector : (Reg.field r).getLsbD 2 = false) (base : Reg)
    (ignored : BitVec 6) : decode (wordBase6 0b0100 r base ignored) = .jsrr base := by
  rw [decode_of_opcode_call (opcodeOf_wordBase6 ..), getLsbD_eleven_wordBase6, selector,
    if_neg Bool.false_ne_true, regAt_six_wordBase6]

theorem decode_ret (ignored3 : BitVec 3) (ignored6 : BitVec 6) :
    decode (wordBase6 0b1100 ignored3.toFin 7 ignored6) = .ret := by
  simp [decode]

theorem decode_unassigned (ignored : BitVec 12) : decode (0b1101#4 ++ ignored) = .unassigned := by
  have opcode : opcodeOf (0b1101#4 ++ ignored) = 0b1101 := BitVec.extractLsb'_append_eq_left
  rw [decode, opcode]
  rfl

theorem decode_of_opcode_trap {w : Word} (h : opcodeOf w = 0b1111) :
    decode w = decodeTrap (vect8Of w) := by
  rw [decode, h]; rfl

/-- A TRAP word goes by its vector alone. -/
theorem decode_trap (ignored : BitVec 4) (vec : BitVec 8) :
    decode (0b1111#4 ++ ignored ++ vec) = decodeTrap vec := by
  have opcode : opcodeOf (0b1111#4 ++ ignored ++ vec) = 0b1111 := by
    rw [opcodeOf, BitVec.extractLsb'_append_eq_of_le (by decide)]
    exact BitVec.extractLsb'_append_eq_left
  have vector : vect8Of (0b1111#4 ++ ignored ++ vec) = vec := BitVec.extractLsb'_append_eq_right
  rw [decode_of_opcode_trap opcode, vector]

theorem decodeTrap_of_not_service {vec : BitVec 8} (other : vec ∉ serviceVectors) :
    decodeTrap vec = .trap vec := by
  simp only [serviceVectors, List.mem_cons, List.not_mem_nil, or_false, not_or] at other
  obtain ⟨getc, out, puts, inChar, putsp, halt⟩ := other
  rw [decodeTrap, if_neg getc, if_neg out, if_neg puts, if_neg inChar, if_neg putsp, if_neg halt]

/-! ### The canonical word decodes to its instruction -/

theorem decode_encode {i : Instr} (wf : i.wf = true) : decode (encode i) = i := by
  cases i with
  | br n z p off => exact decode_encode_br n z p off
  | addReg dr sr1 sr2 =>
    rw [encode, wordBase6_register, decode_of_opcode_add (opcodeOf_wordRegisterForm ..),
      readForm_wordRegisterForm]
  | addImm dr sr1 imm =>
    rw [encode, ← wordImmediateForm_eq_wordBase6,
      decode_of_opcode_add (opcodeOf_wordImmediateForm ..), readForm_wordImmediateForm]
  | andReg dr sr1 sr2 =>
    rw [encode, wordBase6_register, decode_of_opcode_and (opcodeOf_wordRegisterForm ..),
      readForm_wordRegisterForm]
  | andImm dr sr1 imm =>
    rw [encode, ← wordImmediateForm_eq_wordBase6,
      decode_of_opcode_and (opcodeOf_wordImmediateForm ..), readForm_wordImmediateForm]
  | notReg dr sr => exact decode_not dr sr 0x3F
  | ld dr off => exact decode_ld dr off
  | ldi dr off => exact decode_ldi dr off
  | ldr dr base off => exact decode_ldr dr base off
  | lea dr off => exact decode_lea dr off
  | st sr off => exact decode_st sr off
  | sti sr off => exact decode_sti sr off
  | str sr base off => exact decode_str sr base off
  | jsrr base => exact decode_jsrr (by decide) base 0
  | jsr off => exact decode_encode_jsr off
  | rti => exact decode_rti 0
  | ret => exact decode_ret 0 0
  | jmp base => exact decode_jmp 0 0 (of_decide_eq_true wf)
  | unassigned => exact decode_unassigned 0
  | trap vec => exact (decode_trap 0 vec).trans (decodeTrap_of_not_service (of_decide_eq_true wf))
  | getc | out | puts | inChar | putsp | halt => exact decode_trap 0 _

end Sys2Proof.Machine

namespace Sys2Proof.Proofs

open Sys2Proof.Machine

/-- Settles O1, by the formats of the instructions. -/
theorem decodeOfEncodeIsTheInstruction : Obligations.DecodeOfEncodeIsTheInstruction :=
  fun _ wf => decode_encode wf

end Sys2Proof.Proofs
end

section
/-! The decoder's cases (30_encoding.md R59, R63, R65, R66, R69): every word stands in one of them,
which says what it decodes to and which bits it ignores. The opcode table, the ignored bits and the
canonical word are read off these cases. -/

namespace Sys2Proof.Machine

/-! ### The decoder's cases -/

/-- The case of the decoder a word stands in: its opcode and selector, what it decodes to, and the
bits its format ignores. -/
inductive DecodeCase (w : Word) : Instr → Word → Prop where
  | br (op : opcodeOf w = 0x0) :
      DecodeCase w (.br (w.getLsbD 11) (w.getLsbD 10) (w.getLsbD 9) (off9Of w)) 0x0000
  | addImm (op : opcodeOf w = 0x1) (form : w.getLsbD 5 = true) :
      DecodeCase w (.addImm (regAt w 9) (regAt w 6) (imm5Of w)) 0x0000
  | addReg (op : opcodeOf w = 0x1) (form : w.getLsbD 5 = false) :
      DecodeCase w (.addReg (regAt w 9) (regAt w 6) (regAt w 0)) 0x0018
  | ld (op : opcodeOf w = 0x2) : DecodeCase w (.ld (regAt w 9) (off9Of w)) 0x0000
  | st (op : opcodeOf w = 0x3) : DecodeCase w (.st (regAt w 9) (off9Of w)) 0x0000
  | jsr (op : opcodeOf w = 0x4) (form : w.getLsbD 11 = true) :
      DecodeCase w (.jsr (off11Of w)) 0x0000
  | jsrr (op : opcodeOf w = 0x4) (form : w.getLsbD 11 = false) :
      DecodeCase w (.jsrr (regAt w 6)) 0x063F
  | andImm (op : opcodeOf w = 0x5) (form : w.getLsbD 5 = true) :
      DecodeCase w (.andImm (regAt w 9) (regAt w 6) (imm5Of w)) 0x0000
  | andReg (op : opcodeOf w = 0x5) (form : w.getLsbD 5 = false) :
      DecodeCase w (.andReg (regAt w 9) (regAt w 6) (regAt w 0)) 0x0018
  | ldr (op : opcodeOf w = 0x6) : DecodeCase w (.ldr (regAt w 9) (regAt w 6) (off6Of w)) 0x0000
  | str (op : opcodeOf w = 0x7) : DecodeCase w (.str (regAt w 9) (regAt w 6) (off6Of w)) 0x0000
  | rti (op : opcodeOf w = 0x8) : DecodeCase w .rti 0x0FFF
  | notReg (op : opcodeOf w = 0x9) : DecodeCase w (.notReg (regAt w 9) (regAt w 6)) 0x003F
  | ldi (op : opcodeOf w = 0xA) : DecodeCase w (.ldi (regAt w 9) (off9Of w)) 0x0000
  | sti (op : opcodeOf w = 0xB) : DecodeCase w (.sti (regAt w 9) (off9Of w)) 0x0000
  | ret (op : opcodeOf w = 0xC) (base : regAt w 6 = 7) : DecodeCase w .ret 0x0E3F
  | jmp (op : opcodeOf w = 0xC) (base : regAt w 6 ≠ 7) : DecodeCase w (.jmp (regAt w 6)) 0x0E3F
  | unassigned (op : opcodeOf w = 0xD) : DecodeCase w .unassigned 0x0FFF
  | lea (op : opcodeOf w = 0xE) : DecodeCase w (.lea (regAt w 9) (off9Of w)) 0x0000
  | trap (op : opcodeOf w = 0xF) : DecodeCase w (decodeTrap (vect8Of w)) 0x0F00

theorem decodeCase_decode (w : Word) : DecodeCase w (decode w) (ignoredBits w) := by
  obtain ⟨op, h⟩ : ∃ op : Fin 16, opcodeOf w = BitVec.ofFin op := ⟨(opcodeOf w).toFin, rfl⟩
  rw [decode, ignoredBits, h]
  fin_cases op
  · exact .br h
  · cases form : w.getLsbD 5
    · exact .addReg h form
    · exact .addImm h form
  · exact .ld h
  · exact .st h
  · cases form : w.getLsbD 11
    · exact .jsrr h form
    · exact .jsr h form
  · cases form : w.getLsbD 5
    · exact .andReg h form
    · exact .andImm h form
  · exact .ldr h
  · exact .str h
  · exact .rti h
  · exact .notReg h
  · exact .ldi h
  · exact .sti h
  · by_cases base : regAt w 6 = 7
    · simpa [base] using DecodeCase.ret h base
    · simpa [base] using DecodeCase.jmp h base
  · exact .unassigned h
  · exact .lea h
  · exact .trap h

/-- The case of a word settles what it decodes to. -/
theorem DecodeCase.decode_eq {w k : Word} {i : Instr} (h : DecodeCase w i k) : decode w = i := by
  cases h with
  | addImm op form | andImm op form | jsr op form | ret op form =>
    rw [decode, op]; exact if_pos form
  | addReg op form | andReg op form | jsrr op form =>
    rw [decode, op]; exact if_neg (ne_true_of_eq_false form)
  | jmp op base => rw [decode, op]; exact if_neg base
  | br op | ld op | st op | ldr op | str op | rti op | notReg op | ldi op | sti op | unassigned op
  | lea op | trap op => rw [decode, op]; rfl

theorem wf_decodeTrap (vec : BitVec 8) : (decodeTrap vec).wf = true := by
  by_cases service : vec ∈ serviceVectors
  · revert vec; decide
  · rw [decodeTrap_of_not_service service]
    exact decide_eq_true service

theorem DecodeCase.wf {w k : Word} {i : Instr} (h : DecodeCase w i k) : i.wf = true := by
  cases h with
  | jmp _ base => exact decide_eq_true base
  | trap => exact wf_decodeTrap _
  | _ => rfl

/-! ### Ignored bits (R69) -/

section
variable {k : Word} (w m : Word)

theorem extractLsb'_xor_masked {lo len : Nat} (clear : k.extractLsb' lo len = 0) :
    (w ^^^ (m &&& k)).extractLsb' lo len = w.extractLsb' lo len := by
  simp [BitVec.extractLsb'_xor, BitVec.extractLsb'_and, clear]

theorem opcodeOf_xor_masked (clear : opcodeOf k = 0) : opcodeOf (w ^^^ (m &&& k)) = opcodeOf w :=
  extractLsb'_xor_masked w m clear

theorem regAt_xor_masked {lo : Nat} (clear : k.extractLsb' lo 3 = 0) :
    regAt (w ^^^ (m &&& k)) lo = regAt w lo :=
  regAt_of_field (extractLsb'_xor_masked w m clear)

theorem vect8Of_xor_masked (clear : vect8Of k = 0) : vect8Of (w ^^^ (m &&& k)) = vect8Of w :=
  extractLsb'_xor_masked w m clear

theorem getLsbD_xor_masked {b : Nat} (clear : k.getLsbD b = false) :
    (w ^^^ (m &&& k)).getLsbD b = w.getLsbD b := by
  simp [clear]

end

/-- A word with ignored bits changed stands in the same case, with the same fields. -/
theorem DecodeCase.xor_ignored {w k : Word} {i : Instr} (h : DecodeCase w i k) (m : Word) :
    DecodeCase (w ^^^ (m &&& k)) i k := by
  cases h with
  | addReg op form | andReg op form =>
    rw [← regAt_xor_masked w m (k := 0x0018) (lo := 9) (by decide),
      ← regAt_xor_masked w m (k := 0x0018) (lo := 6) (by decide),
      ← regAt_xor_masked w m (k := 0x0018) (lo := 0) (by decide)]
    constructor
    · exact (opcodeOf_xor_masked w m (by decide)).trans op
    · exact (getLsbD_xor_masked w m (by decide)).trans form
  | jsrr op form =>
    have c := DecodeCase.jsrr ((opcodeOf_xor_masked w m (k := 0x063F) (by decide)).trans op)
      ((getLsbD_xor_masked w m (by decide)).trans form)
    rwa [regAt_xor_masked w m (by decide)] at c
  | notReg op =>
    have c := DecodeCase.notReg ((opcodeOf_xor_masked w m (k := 0x003F) (by decide)).trans op)
    rwa [regAt_xor_masked w m (by decide), regAt_xor_masked w m (by decide)] at c
  | ret op base =>
    exact .ret ((opcodeOf_xor_masked w m (by decide)).trans op)
      ((regAt_xor_masked w m (by decide)).trans base)
  | jmp op base =>
    have r : regAt (w ^^^ (m &&& 0x0E3F)) 6 = regAt w 6 := regAt_xor_masked w m (by decide)
    exact r ▸ .jmp ((opcodeOf_xor_masked w m (by decide)).trans op) (r ▸ base)
  | rti op => exact .rti ((opcodeOf_xor_masked w m (by decide)).trans op)
  | unassigned op => exact .unassigned ((opcodeOf_xor_masked w m (by decide)).trans op)
  | trap op =>
    have c := DecodeCase.trap ((opcodeOf_xor_masked w m (k := 0x0F00) (by decide)).trans op)
    rwa [vect8Of_xor_masked w m (by decide)] at c
  | br | addImm | ld | st | jsr | andImm | ldr | str | ldi | sti | lea =>
    rw [show w ^^^ (m &&& 0) = w by simp]
    constructor <;> assumption

/-! ### Agreement outside the ignored bits -/

/-- Two bit vectors agree in every bit that is not ignored. -/
def AgreeOutside {n : Nat} (ignored v w : BitVec n) : Prop :=
  ∀ b, ignored.getLsbD b = false → v.getLsbD b = w.getLsbD b

theorem AgreeOutside.refl {n : Nat} (ignored v : BitVec n) : AgreeOutside ignored v v :=
  fun _ _ => rfl

theorem agreeOutside_of_eq {n : Nat} {ignored v w : BitVec n} (h : v = w) :
    AgreeOutside ignored v w :=
  fun _ _ => by rw [h]

theorem agreeOutside_allOnes {n : Nat} (v w : BitVec n) : AgreeOutside (BitVec.allOnes n) v w := by
  intro b outside
  have past : n ≤ b := by simpa using outside
  rw [BitVec.getLsbD_of_ge v b past, BitVec.getLsbD_of_ge w b past]

theorem AgreeOutside.append {n k : Nat} {i v w : BitVec n} {j x y : BitVec k}
    (high : AgreeOutside i v w) (low : AgreeOutside j x y) :
    AgreeOutside (i ++ j) (v ++ x) (w ++ y) := by
  intro b
  simp only [BitVec.getLsbD_append]
  split_ifs
  · exact low b
  · exact high (b - k)

theorem AgreeOutside.xor_and_not {n : Nat} {ignored v w : BitVec n} (h : AgreeOutside ignored v w) :
    (v ^^^ w) &&& ~~~ ignored = 0 := by
  apply BitVec.eq_of_getLsbD_eq
  intro b inside
  cases seen : ignored.getLsbD b
  · simp [h b seen]
  · simp [seen]

/-- What agrees outside the ignored bits is alike under a mask that leaves those out. -/
theorem AgreeOutside.masked {n : Nat} {ignored v w mask : BitVec n} (h : AgreeOutside ignored v w)
    (seen : mask &&& ignored = 0#n) : v &&& mask = w &&& mask := by
  apply BitVec.eq_of_getLsbD_eq
  intro b inside
  have bit : (mask.getLsbD b && ignored.getLsbD b) = false := by
    rw [← BitVec.getLsbD_and, seen, BitVec.getLsbD_zero]
  rw [BitVec.getLsbD_and, BitVec.getLsbD_and]
  cases masked : mask.getLsbD b
  · simp
  · rw [h b (by simpa [masked] using bit)]

/-- Three bits with the top one 0, the others ignored. -/
theorem agreeOutside_of_top {f : BitVec 3} (top : f.getLsbD 2 = false) :
    AgreeOutside 0b011#3 0#3 f := by
  intro b seen
  obtain rfl | past : b = 2 ∨ 3 ≤ b := by
    by_contra small
    obtain rfl | rfl : b = 0 ∨ b = 1 := by omega
    all_goals exact Bool.noConfusion seen
  · exact top.symm
  · rw [BitVec.getLsbD_of_ge f b past, BitVec.getLsbD_of_ge 0#3 b past]

/-! ### A word is put together from its fields (R61) -/

/-- A bit, as a field of one bit. -/
theorem extractLsb'_one_bit (w : Word) (b : Nat) :
    w.extractLsb' b 1 = BitVec.ofBool (w.getLsbD b) := by
  apply BitVec.eq_of_getLsbD_eq
  intro k small
  obtain rfl : k = 0 := by omega
  simp

section
variable {w : Word} {op : BitVec 4} (h : opcodeOf w = op)
include h

theorem opcode_rest : op ++ w.extractLsb' 0 12 = w := by
  rw [← h]
  exact (BitVec.extractLsb'_append_extractLsb'_eq_extractLsb' rfl).trans BitVec.extractLsb'_eq_self

theorem opcode_ignored_vector : op ++ w.extractLsb' 8 4 ++ vect8Of w = w := by
  have high : opcodeOf w ++ w.extractLsb' 8 4 = w.extractLsb' 8 8 :=
    BitVec.extractLsb'_append_extractLsb'_eq_extractLsb' rfl
  rw [← h, high]
  exact (BitVec.extractLsb'_append_extractLsb'_eq_extractLsb' rfl).trans BitVec.extractLsb'_eq_self

theorem opcode_register : op ++ Reg.field (regAt w 9) = w.extractLsb' 9 7 := by
  rw [← h]
  exact BitVec.extractLsb'_append_extractLsb'_eq_extractLsb' rfl

theorem wordPc9_fields : wordPc9 op (regAt w 9) (off9Of w) = w := by
  rw [wordPc9, opcode_register h]
  exact (BitVec.extractLsb'_append_extractLsb'_eq_extractLsb' rfl).trans BitVec.extractLsb'_eq_self

theorem wordBase6_fields : wordBase6 op (regAt w 9) (regAt w 6) (off6Of w) = w := by
  have middle : w.extractLsb' 9 7 ++ Reg.field (regAt w 6) = w.extractLsb' 6 10 :=
    BitVec.extractLsb'_append_extractLsb'_eq_extractLsb' rfl
  rw [wordBase6, opcode_register h, middle]
  exact (BitVec.extractLsb'_append_extractLsb'_eq_extractLsb' rfl).trans BitVec.extractLsb'_eq_self

theorem opcode_selector_off11 (form : w.getLsbD 11 = true) : op ++ 1#1 ++ off11Of w = w := by
  have high : opcodeOf w ++ w.extractLsb' 11 1 = w.extractLsb' 11 5 :=
    BitVec.extractLsb'_append_extractLsb'_eq_extractLsb' rfl
  rw [← h, show 1#1 = w.extractLsb' 11 1 by rw [extractLsb'_one_bit, form]; rfl, high]
  exact (BitVec.extractLsb'_append_extractLsb'_eq_extractLsb' rfl).trans BitVec.extractLsb'_eq_self

theorem opcode_nzp_off9 :
    op ++ BitVec.ofBool (w.getLsbD 11) ++ BitVec.ofBool (w.getLsbD 10) ++
      BitVec.ofBool (w.getLsbD 9) ++ off9Of w = w := by
  have n : opcodeOf w ++ w.extractLsb' 11 1 = w.extractLsb' 11 5 :=
    BitVec.extractLsb'_append_extractLsb'_eq_extractLsb' rfl
  have z : w.extractLsb' 11 5 ++ w.extractLsb' 10 1 = w.extractLsb' 10 6 :=
    BitVec.extractLsb'_append_extractLsb'_eq_extractLsb' rfl
  have p : w.extractLsb' 10 6 ++ w.extractLsb' 9 1 = w.extractLsb' 9 7 :=
    BitVec.extractLsb'_append_extractLsb'_eq_extractLsb' rfl
  rw [← h, ← extractLsb'_one_bit, ← extractLsb'_one_bit, ← extractLsb'_one_bit, n, z, p]
  exact (BitVec.extractLsb'_append_extractLsb'_eq_extractLsb' rfl).trans BitVec.extractLsb'_eq_self

/-- A word of the BASE6 shape agrees with `w` where its fields do. -/
theorem agreeOutside_base6 {r base : Reg} {low i : BitVec 6} {j k : BitVec 3}
    (high : AgreeOutside j (Reg.field r) (Reg.field (regAt w 9)))
    (middle : AgreeOutside k (Reg.field base) (Reg.field (regAt w 6)))
    (rest : AgreeOutside i low (off6Of w)) :
    AgreeOutside (0#4 ++ j ++ k ++ i) (wordBase6 op r base low) w := by
  have agree := (((AgreeOutside.refl 0#4 op).append high).append middle).append rest
  have fields := wordBase6_fields h
  rw [wordBase6] at fields
  rwa [fields] at agree

end

theorem selector_imm5 {w : Word} (form : w.getLsbD 5 = true) : 1#1 ++ imm5Of w = off6Of w := by
  rw [show 1#1 = w.extractLsb' 5 1 by rw [extractLsb'_one_bit, form]; rfl]
  exact BitVec.extractLsb'_append_extractLsb'_eq_extractLsb' rfl

theorem agreeOutside_register_low {w : Word} (form : w.getLsbD 5 = false) :
    AgreeOutside 0x18#6 (0#3 ++ Reg.field (regAt w 0)) (off6Of w) := by
  have top : (w.extractLsb' 3 3).getLsbD 2 = false := by rwa [BitVec.getLsbD_extractLsb']
  have fields : w.extractLsb' 3 3 ++ Reg.field (regAt w 0) = off6Of w :=
    BitVec.extractLsb'_append_extractLsb'_eq_extractLsb' rfl
  exact fields ▸ (agreeOutside_of_top top).append (.refl 0#3 _)

theorem encode_decodeTrap (vec : BitVec 8) : encode (decodeTrap vec) = wordTrap vec := by
  by_cases service : vec ∈ serviceVectors
  · revert vec; decide
  · rw [decodeTrap_of_not_service service, encode]

theorem agreeOutside_opcode {w : Word} {op : BitVec 4} (h : opcodeOf w = op) :
    AgreeOutside 0x0FFF#16 (op ++ 0#12) w := by
  have agree := (AgreeOutside.refl 0#4 op).append (agreeOutside_allOnes 0#12 (w.extractLsb' 0 12))
  rwa [opcode_rest h] at agree

theorem agreeOutside_wordTrap {w : Word} (h : opcodeOf w = 0xF#4) :
    AgreeOutside 0x0F00#16 (wordTrap (vect8Of w)) w := by
  have high := (AgreeOutside.refl 0#4 0xF#4).append (agreeOutside_allOnes 0#4 (w.extractLsb' 8 4))
  have agree := high.append (.refl 0#8 (vect8Of w))
  rwa [opcode_ignored_vector h] at agree

/-! ### The canonical word differs in ignored bits only (R69) -/

theorem DecodeCase.encode_agrees {w k : Word} {i : Instr} (h : DecodeCase w i k) :
    AgreeOutside k (encode i) w := by
  cases h with
  | br op => exact agreeOutside_of_eq (opcode_nzp_off9 op)
  | jsr op form => exact agreeOutside_of_eq (opcode_selector_off11 op form)
  | ld op | st op | ldi op | sti op | lea op => exact agreeOutside_of_eq (wordPc9_fields op)
  | ldr op | str op => exact agreeOutside_of_eq (wordBase6_fields op)
  | addImm op form | andImm op form =>
    rw [encode, selector_imm5 form]
    exact agreeOutside_of_eq (wordBase6_fields op)
  | addReg op form | andReg op form =>
    exact agreeOutside_base6 op (.refl 0#3 _) (.refl 0#3 _) (agreeOutside_register_low form)
  | notReg op =>
    exact agreeOutside_base6 op (.refl 0#3 _) (.refl 0#3 _) (agreeOutside_allOnes _ _)
  | jsrr op form =>
    have top : (Reg.field (regAt w 9)).getLsbD 2 = false := by
      rwa [← getLsbD_eleven_wordBase6, wordBase6_fields op]
    exact agreeOutside_base6 op (agreeOutside_of_top top) (.refl 0#3 _) (agreeOutside_allOnes _ _)
  | ret op base =>
    have same : AgreeOutside 0#3 (Reg.field 7) (Reg.field (regAt w 6)) :=
      agreeOutside_of_eq (by rw [base])
    exact agreeOutside_base6 op (agreeOutside_allOnes _ _) same (agreeOutside_allOnes _ _)
  | jmp op =>
    exact agreeOutside_base6 op (agreeOutside_allOnes _ _) (.refl 0#3 _) (agreeOutside_allOnes _ _)
  | rti op | unassigned op =>
    exact agreeOutside_opcode op
  | trap op =>
    rw [encode_decodeTrap]
    exact agreeOutside_wordTrap op

/-! ### The rows of the opcode table (R65) -/

/-- No word is taken by two rows: they differ in a bit both look at, or the later one leaves out
what the earlier one takes. -/
def RowsApart (r q : OpRow) : Prop :=
  (r.pat &&& q.mask ≠ q.pat &&& r.mask) ∨ q.excluded = some (r.pat, r.mask)

theorem coreRows_apart : coreRows.Pairwise RowsApart := by
  unfold RowsApart; decide

theorem masked_of_takes {r : OpRow} {w : Word} (h : r.takes w = true) : w &&& r.mask = r.pat := by
  simp only [OpRow.takes, Bool.and_eq_true, decide_eq_true_eq] at h
  exact h.1

theorem RowsApart.not_both {r q : OpRow} (apart : RowsApart r q) {w : Word}
    (hr : r.takes w = true) : q.takes w = false := by
  by_contra hq
  rw [Bool.not_eq_false] at hq
  obtain differ | excluded := apart
  · refine differ ?_
    rw [← masked_of_takes hr, ← masked_of_takes hq]
    ac_rfl
  · simp [OpRow.takes, excluded, masked_of_takes hr] at hq

/-- In a list of rows pairwise apart, the one that takes a word is the only one. -/
theorem filter_takes_eq_singleton {rows : List OpRow} (apart : rows.Pairwise RowsApart) {w : Word}
    {r : OpRow} (mem : r ∈ rows) (takes : r.takes w = true) :
    rows.filter (fun q => q.takes w) = [r] := by
  induction rows with
  | nil => cases mem
  | cons q rest ih =>
    obtain ⟨first, apart⟩ := List.pairwise_cons.1 apart
    obtain rfl | mem := List.mem_cons.1 mem
    · have none : rest.filter (fun q => q.takes w) = [] :=
        List.filter_eq_nil_iff.2 fun q hq => by simp [(first q hq).not_both takes]
      rw [List.filter_cons, if_pos takes, none]
    · have skip : ¬ q.takes w = true := fun hq => by simp [(first r mem).not_both hq] at takes
      rw [List.filter_cons, if_neg skip, ih apart mem]

/-- A row looks at no ignored bit of the words it takes. -/
def BlindTo (r : OpRow) (ignored : Word) : Prop :=
  r.mask &&& ignored = 0 ∧ ∀ e ∈ r.excluded, e.2 &&& ignored = 0

theorem takes_congr {r : OpRow} {k v w : Word} (agree : AgreeOutside k v w)
    (blind : BlindTo r k) : r.takes v = r.takes w := by
  obtain ⟨mask, excluded⟩ := blind
  unfold OpRow.takes
  rw [agree.masked mask]
  cases e : r.excluded with
  | none => rfl
  | some p => dsimp only; rw [agree.masked (excluded p e)]
theorem DecodeCase.blind {w k : Word} {i : Instr} (h : DecodeCase w i k) : BlindTo i.coreRow k := by
  have trap (vec : BitVec 8) : (decodeTrap vec).coreRow = ⟨"TRAP", 0xF000, 0xF000, none⟩ := by
    unfold decodeTrap; split_ifs <;> rfl
  cases h with
  | trap => rw [trap]; exact ⟨by decide, nofun⟩
  | jmp => exact ⟨by simp only [Instr.coreRow]; decide, fun e he => by cases he; decide⟩
  | _ => exact ⟨by simp only [Instr.coreRow]; decide, nofun⟩

theorem encodedInItsRow (i : Instr) : Laws.EncodedInItsRow.Statement i := by
  cases i with
  | br => exact Laws.EncodedInItsRow.br ..
  | addReg => exact Laws.EncodedInItsRow.addReg ..
  | addImm => exact Laws.EncodedInItsRow.addImm ..
  | ld => exact Laws.EncodedInItsRow.ld ..
  | st => exact Laws.EncodedInItsRow.st ..
  | jsrr => exact Laws.EncodedInItsRow.jsrr ..
  | jsr => exact Laws.EncodedInItsRow.jsr ..
  | andReg => exact Laws.EncodedInItsRow.andReg ..
  | andImm => exact Laws.EncodedInItsRow.andImm ..
  | ldr => exact Laws.EncodedInItsRow.ldr ..
  | str => exact Laws.EncodedInItsRow.str ..
  | rti => exact Laws.EncodedInItsRow.rti
  | notReg => exact Laws.EncodedInItsRow.notReg ..
  | ldi => exact Laws.EncodedInItsRow.ldi ..
  | sti => exact Laws.EncodedInItsRow.sti ..
  | ret => exact Laws.EncodedInItsRow.ret
  | jmp => exact Laws.EncodedInItsRow.jmp ..
  | unassigned => exact Laws.EncodedInItsRow.unassigned
  | lea => exact Laws.EncodedInItsRow.lea ..
  | trap => exact Laws.EncodedInItsRow.trap ..
  | getc => exact Laws.EncodedInItsRow.getc
  | out => exact Laws.EncodedInItsRow.out
  | puts => exact Laws.EncodedInItsRow.puts
  | inChar => exact Laws.EncodedInItsRow.inChar
  | putsp => exact Laws.EncodedInItsRow.putsp
  | halt => exact Laws.EncodedInItsRow.halt

theorem DecodeCase.takes {w k : Word} {i : Instr} (h : DecodeCase w i k) :
    i.coreRow.takes w = true :=
  (takes_congr h.encode_agrees h.blind).symm.trans ((encodedInItsRow i).2 h.wf)

end Sys2Proof.Machine

namespace Sys2Proof.Proofs

open Sys2Proof.Machine

/-- Settles O2: the row of the decoded instruction takes the word, and no two rows take one word. -/
theorem everyWordSelectsItsOneTableRow : Obligations.EveryWordSelectsItsOneTableRow := fun w =>
  ⟨filter_takes_eq_singleton coreRows_apart (encodedInItsRow _).1 (decodeCase_decode w).takes,
    (decodeCase_decode w).wf⟩

/-- Settles O3: the changed word stands in the same case of the decoder. -/
theorem ignoredBitsDoNotChangeTheInstruction : Obligations.IgnoredBitsDoNotChangeTheInstruction :=
  fun w m => ((decodeCase_decode w).xor_ignored m).decode_eq

/-- Settles O4, by the formats of the decoder's cases. -/
theorem encodeOfDecodeDiffersInIgnoredBitsOnly :
    Obligations.EncodeOfDecodeDiffersInIgnoredBitsOnly :=
  fun w => (decodeCase_decode w).encode_agrees.xor_and_not

/-- Settles O5: each word's fields are read off. -/
theorem writtenOutWordsDecodeAsTheSpecSays : Obligations.WrittenOutWordsDecodeAsTheSpecSays := by
  unfold Obligations.WrittenOutWordsDecodeAsTheSpecSays
  decide

end Sys2Proof.Proofs
end

section
/-! What a step does to the whole machine (30_encoding.md R64 to R68, 10_state.md R22 to R27): a
step is a handler's effect beside what the cycle itself writes, IR, the halted flag and the counter.
The step's invariants follow from this and from how a cycle ends. -/

namespace Sys2Proof.Machine

/-! ### The effect of a step -/

/-- An effect does not depend on what stands in IR. -/
theorem Effect.withIr {s t : State} (h : Effect s t) (ir : Word) :
    Effect { s with ir := ir } { t with ir := ir } := by
  obtain ⟨cfg, -, halted, counter, floor⟩ := h.engine
  exact { h with engine := ⟨cfg, rfl, halted, counter, floor⟩ }

/-- A step is the effect of a handler, but for IR, the halted flag and the counter. -/
theorem Effect.of_step {s t : State} (h : step s = .next t) :
    Effect s { t with ir := s.ir, halted := s.halted, counter := s.counter } := by
  obtain ⟨_, rfl⟩ | ⟨_, _, rfl⟩ | ⟨_, _, a, u, _, ran, ends⟩ := step_next h
  · exact Effect.refl _
  · exact Effect.refl _
  · have effect := (Effect.handlerState s a).trans ((Effect.of_exec ran).withIr s.ir)
    obtain ⟨cfg, ir, halted, counter, floor⟩ := effect.engine
    have engine : SameEngine s { u with ir := s.ir, halted := s.halted, counter := s.counter } :=
      ⟨cfg, ir, rfl, rfl, floor⟩
    obtain ⟨_, rfl⟩ | ⟨_, rfl⟩ := ends
    · exact { effect with engine := engine, flags := .inl ⟨rfl, rfl, rfl⟩ }
    · rw [State.boundary_spec]
      exact { effect with engine := engine }

theorem cfg_of_step {s t : State} (h : step s = .next t) : t.cfg = s.cfg :=
  (Effect.of_step h).engine.1

/-- A cycle ends halted exactly at PC = 0x0000 (R68, D24); a wait leaves the PC it began at. -/
theorem halted_of_step {s t : State} (running : s.halted = false) (pc : s.pc ≠ 0x0000)
    (h : step s = .next t) : t.halted = decide (t.pc = 0x0000) := by
  obtain ⟨halted, _⟩ | ⟨_, zero, _⟩ | ⟨_, _, a, u, _, ran, ends⟩ := step_next h
  · simp [running] at halted
  · exact absurd zero pc
  · obtain ⟨-, -, halted, -⟩ := (Effect.of_exec ran).engine
    rw [handlerState_halted, running] at halted
    obtain ⟨_, rfl⟩ | ⟨_, rfl⟩ := ends
    · exact halted.trans (decide_eq_false pc).symm
    · rw [State.boundary_spec]
      simp [halted]

/-- A machine that waits is in the cycle it began: it is not halted, and its PC is the cycle's. -/
theorem running_of_step_waits {s t : State} (h : step s = .next t)
    (before : s.waiting = true → s.halted = false ∧ s.pc ≠ 0x0000) (waits : t.waiting = true) :
    t.halted = false ∧ t.pc ≠ 0x0000 := by
  obtain ⟨_, rfl⟩ | ⟨_, zero, rfl⟩ | ⟨running, pc, a, u, _, ran, ⟨_, rfl⟩ | ⟨free, rfl⟩⟩ :=
    step_next h
  · exact before waits
  · exact absurd zero (before waits).2
  · obtain ⟨-, -, halted, -⟩ := (Effect.of_exec ran).engine
    exact ⟨halted.trans ((handlerState_halted s a).trans running), pc⟩
  · rw [State.boundary_spec] at waits
    exact absurd waits (ne_true_of_eq_false free)

/-! ### The invariant -/

/-- At most one flag is set (10_state.md R18). -/
def FlagsExclusive (s : State) : Prop :=
  ¬ (s.n = true ∧ s.z = true) ∧ ¬ (s.n = true ∧ s.p = true) ∧ ¬ (s.z = true ∧ s.p = true)

theorem flagsExclusive_of_flagsFrom {v : Word} {s : State} (h : FlagsFrom v s) :
    FlagsExclusive s := by
  obtain ⟨n, z, p⟩ := h
  unfold FlagsExclusive
  rw [n, z, p]
  omega

theorem Effect.flagsExclusive {s t : State} (h : Effect s t) (exclusive : FlagsExclusive s) :
    FlagsExclusive t := by
  obtain ⟨n, z, p⟩ | ⟨v, set⟩ := h.flags
  · unfold FlagsExclusive
    rw [n, z, p]
    exact exclusive
  · exact flagsExclusive_of_flagsFrom set

theorem machineInv_iff (s : State) :
    MachineInv s ↔ s.cfg.wf = true ∧ Memory.wf s.mem = true ∧ CursorInRange s ∧ FlagsExclusive s ∧
      (s.halted = true → s.pc = 0x0000) ∧
      (s.waiting = true → s.halted = false ∧ s.pc ≠ 0x0000) := by
  simp only [MachineInv, CursorInRange, FlagsExclusive, and_assoc]

theorem machineInv_of_step {s t : State} (inv : MachineInv s) (h : step s = .next t) :
    MachineInv t := by
  rw [machineInv_iff] at inv ⊢
  obtain ⟨cfgWf, memWf, cursor, flags, halted, waits⟩ := inv
  have effect := Effect.of_step h
  obtain ⟨memWf', cursor'⟩ := effect.stored cfgWf memWf cursor
  refine ⟨cfg_of_step h ▸ cfgWf, memWf', cursor', effect.flagsExclusive flags, fun halts => ?_,
    running_of_step_waits h waits⟩
  obtain ⟨_, rfl⟩ | ⟨_, zero, rfl⟩ | ⟨running, pc, _⟩ := step_next h
  · exact halted halts
  · exact zero
  · rw [halted_of_step running pc h] at halts
    exact of_decide_eq_true halts

/-! ### The cycle, read forwards -/

theorem step_of_halted {s : State} (halted : s.halted = true) : step s = .next s := if_pos halted

theorem step_of_pc_zero {s : State} (running : s.halted = false) (zero : s.pc = 0x0000) :
    step s = .next { s with halted := true } := by
  unfold step runOne
  rw [running, if_neg Bool.false_ne_true, if_pos zero, State.boundary_spec, running,
    decide_eq_true zero]
  rfl

end Sys2Proof.Machine

namespace Sys2Proof.Proofs

open Sys2Proof.Machine

/-- Settles O39: memory, cursor and flags by the effect of a step, the halted and wait flags by how
the step ends. -/
theorem everyStepKeepsTheInvariant : Obligations.EveryStepKeepsTheInvariant :=
  fun _ _ => machineInv_of_step

/-- Settles O41: halt detection in a halted machine, at PC = 0x0000, and after a cycle. -/
theorem haltIsDetectedAtEveryBoundary : Obligations.HaltIsDetectedAtEveryBoundary :=
  ⟨fun _ => step_of_halted, fun _ => step_of_pc_zero, fun _ _ => halted_of_step⟩

/-- Settles O42: a cycle that commits has fetched the word in IR and counts once; every other ending
leaves both alone. -/
theorem counterCountsCommittedCycles : Obligations.CounterCountsCommittedCycles := by
  intro s t h
  obtain ⟨halted, rfl⟩ | ⟨_, zero, rfl⟩ | ⟨running, pc, a, u, index, ran, ends⟩ := step_next h
  · exact .inr ⟨rfl, rfl, .inl halted⟩
  · exact .inr ⟨rfl, rfl, .inr (.inl zero)⟩
  · obtain ⟨-, ir, -, counter, -⟩ := (Effect.of_exec ran).engine
    rw [handlerState_ir] at ir
    rw [handlerState_counter] at counter
    obtain ⟨waits, rfl⟩ | ⟨free, rfl⟩ := ends
    · exact .inr ⟨counter, rfl, .inr (.inr waits)⟩
    · rw [State.boundary_spec]
      exact .inl ⟨congrArg (· + 1) counter, free, running, pc, a, index, ir.symm⟩

/-- Settles O46: what an effect does to input, output and reports, and that it leaves the parameters
and the load floor alone. -/
theorem consoleAndReportsOnlyGrowInOrder : Obligations.ConsoleAndReportsOnlyGrowInOrder := by
  intro s t h
  have effect := Effect.of_step h
  obtain ⟨cfg, -, -, -, floor⟩ := effect.engine
  exact ⟨effect.input, effect.consumed, effect.output, effect.reports, cfg, floor⟩

/-- Settles O38: the reset state is one concrete state. -/
theorem resetMeetsTheInvariant : Obligations.ResetMeetsTheInvariant := by
  unfold Obligations.ResetMeetsTheInvariant MachineInv
  decide

/-- Settles O37: the registers are a vector of zeros, and nothing is listed in the memory. -/
theorem resetZeroesEverythingAndEmptiesTheStack :
    Obligations.ResetZeroesEverythingAndEmptiesTheStack :=
  ⟨by decide, rfl, rfl, rfl, rfl, rfl, rfl, rfl, rfl, fun _ => rfl, rfl, rfl⟩

/-- Settles O40: a cycle is the handler of the fetched word and how the cycle ends on its answer. -/
theorem stepRunsTheDecodedInstruction : Obligations.StepRunsTheDecodedInstruction := by
  rintro s a w running pc index rfl
  have stepped := step_of_fetch running pc index
  refine ⟨handlerState s a, handlerState_eq s a, fun t ran free => ?_, fun t ran waits => ?_,
    fun f ran => ?_, fun f ran => ?_⟩ <;> rw [stepped, ran]
  · rw [finishCycle_of_not_waiting (by simp [free]), State.boundary_spec]
    rfl
  · exact finishCycle_of_waiting waits s
  · rfl
  · rfl

end Sys2Proof.Proofs
end

section
/-! Calls and returns pair up (42_control.md R86, R89 to R93): a call leaves the return address on
top of the call stack, a balanced run leaves the cursor and the live entries as they are, and the
return takes that address back. -/

namespace Sys2Proof.Machine

/-! ### RET and JSRR (R89, R91) -/

theorem decode_jsrr_word (ignored2 : BitVec 2) (base : Reg) (ignored6 : BitVec 6) :
    decode (0b0100#4 ++ 0b0#1 ++ ignored2 ++ Reg.field base ++ ignored6) = .jsrr base := by
  have selector : (0b0#1 ++ ignored2).getLsbD 2 = false := BitVec.getLsbD_append
  have high : 0b0100#4 ++ 0b0#1 ++ ignored2 = 0b0100#4 ++ (0b0#1 ++ ignored2) := by
    rw [BitVec.append_assoc']; rfl
  rw [high]
  exact decode_jsrr (r := (0b0#1 ++ ignored2).toFin) selector base ignored6

/-! ### The step of a call -/

/-- From `s` to `t` a call has been made on a stack with room: the return address stands in the new
top entry, and every other word is as it was. -/
structure CalledFrom (s t : State) : Prop where
  cfg : t.cfg = s.cfg
  cursor : t.spc + 1 = s.spc
  entry : t.word t.spc = s.pc + 1
  others : SameMemoryBut t.spc s t

theorem exec_of_isCall {i : Instr} (call : isCall i = true) (s : State) :
    ∃ target, exec i s = callTo s target := by
  cases i with
  | jsr | jsrr => exact ⟨_, rfl⟩
  | _ => cases call

/-- A step whose handler answers `u` and does not wait commits `u`. -/
theorem commits_of_step {s t u : State} {i : Instr} {a : Nat}
    (cycles : step s = finishCycle s (exec i (handlerState s a)))
    (ran : exec i (handlerState s a) = .next u) (free : u.waiting = false) (h : step s = .next t) :
    t = { u with counter := u.counter + 1, halted := u.halted || decide (u.pc = 0x0000) } := by
  rw [cycles, ran, finishCycle_of_not_waiting (by simp [free]), State.boundary_spec] at h
  exact (Host.Outcome.next.inj h).symm

theorem calledFrom_of_step {s t : State} {i : Instr} (memWf : Memory.wf s.mem = true)
    (runs : Runs s i) (call : isCall i = true) (notFull : s.cfg.stackLimit < s.spc)
    (h : step s = .next t) : CalledFrom s t := by
  obtain ⟨-, a, cycles⟩ := step_of_runs runs
  obtain ⟨target, ran⟩ := exec_of_isCall call (handlerState s a)
  obtain ⟨push, -, -, -, -, -, ⟨-, -, wait⟩, cfg, -⟩ :=
    callEffect_of_callTo (s := handlerState s a) (by simpa using memWf) (target := target) rfl
  obtain ⟨cursor, entry, others, -⟩ := push.2 (by simp; omega)
  rw [commits_of_step cycles ran (wait.trans (handlerState_waiting s a)) h]
  exact ⟨cfg.trans (handlerState_cfg s a), cursor.trans (handlerState_spc s a),
    entry.trans (handlerState_pc s a), fun b ne => (others b ne).trans (handlerState_word s a b)⟩

/-! ### The step of a return -/

/-- From `s` to `t` a return has been made on a stack that is not empty: the PC is the top entry,
which is popped, and every word is as it was. -/
structure ReturnedFrom (s t : State) : Prop where
  cfg : t.cfg = s.cfg
  pc : t.pc = s.word s.spc
  cursor : t.spc = s.spc + 1
  memory : SameMemory s t

theorem exec_of_isReturn {i : Instr} (back : isReturn i = true) (s : State) :
    ∃ u, exec i s = .next u ∧ PopEffect u.pc s u ∧ u.waiting = s.waiting ∧ u.cfg = s.cfg := by
  obtain ⟨-, -, -, -, ⟨-, -, wait⟩, cfg, -⟩ := sameButCallStack_stackPop s
  cases i with
  | ret => exact ⟨_, exec_ret s, popEffect_stackPop s, wait, cfg⟩
  | rti => exact ⟨_, exec_rti s, popEffect_stackPop s, wait, cfg⟩
  | _ => cases back

theorem returnedFrom_of_step {s t : State} {i : Instr} (runs : Runs s i) (back : isReturn i = true)
    (entry : s.spc ≠ s.cfg.stackTop) (h : step s = .next t) : ReturnedFrom s t := by
  obtain ⟨-, a, cycles⟩ := step_of_runs runs
  obtain ⟨u, ran, ⟨memory, -, pop⟩, wait, cfg⟩ := exec_of_isReturn back (handlerState s a)
  obtain ⟨pc, cursor, -⟩ := pop (by simpa using entry)
  simp only [handlerState_spc, handlerState_word] at pc cursor
  rw [commits_of_step cycles ran (wait.trans (handlerState_waiting s a)) h]
  exact ⟨cfg.trans (handlerState_cfg s a), pc, cursor,
    fun b => (memory b).trans (handlerState_word s a b)⟩

/-! ### Balanced runs (R93) -/

/-- The parameters, the cursor and the live entries are as they were. -/
structure KeepsEntries (s t : State) : Prop where
  cfg : t.cfg = s.cfg
  cursor : t.spc = s.spc
  entries : SameEntries s t

theorem KeepsEntries.refl (s : State) : KeepsEntries s s := ⟨rfl, rfl, fun _ _ _ => rfl⟩

theorem KeepsEntries.trans {s t u : State} (h : KeepsEntries s t) (h' : KeepsEntries t u) :
    KeepsEntries s u :=
  ⟨h'.cfg.trans h.cfg, h'.cursor.trans h.cursor, fun a low high =>
    (h'.entries a (h.cursor ▸ low) (h.cfg ▸ high)).trans (h.entries a low high)⟩

/-- After a call, a run that keeps the live entries, and the return: the PC is the one after the
call, and the caller's entries are kept. -/
theorem CalledFrom.returned {s s1 s2 s3 : State} {back : Instr} (called : CalledFrom s s1)
    (top : s.spc ≤ s.cfg.stackTop) (body : KeepsEntries s1 s2) (runs : Runs s2 back)
    (isBack : isReturn back = true) (h : step s2 = .next s3) :
    s3.pc = s.pc + 1 ∧ KeepsEntries s s3 := by
  have cursor := called.cursor
  have live : s1.spc < s1.cfg.stackTop := by rw [called.cfg]; omega
  have returned := returnedFrom_of_step runs isBack
    (by rw [body.cursor, body.cfg]; exact live.ne) h
  refine ⟨?_, returned.cfg.trans (body.cfg.trans called.cfg), ?_, fun a low high => ?_⟩
  · rw [returned.pc, body.cursor, body.entries s1.spc le_rfl live, called.entry]
  · rw [returned.cursor, body.cursor, cursor]
  · rw [returned.memory a, body.entries a (by omega) (called.cfg ▸ high),
      called.others a (by omega)]

theorem Balanced.keepsEntries {s t : State} (h : Balanced s t) (inv : MachineInv s) :
    MachineInv t ∧ KeepsEntries s t := by
  induction h with
  | done s => exact ⟨inv, .refl s⟩
  | plain stepped cursor entries rest ih =>
    obtain ⟨inv', rest⟩ := ih (machineInv_of_step inv stepped)
    have first := KeepsEntries.mk (cfg_of_step stepped) cursor entries
    exact ⟨inv', first.trans rest⟩
  | nested runsCall isACall notFull stepped body runsBack isAReturn returned rest ihBody ihRest =>
    have ⟨_, memWf, ⟨_, top⟩, _⟩ := inv
    have called := calledFrom_of_step memWf runsCall isACall notFull stepped
    obtain ⟨inv2, body⟩ := ihBody (machineInv_of_step inv stepped)
    obtain ⟨-, first⟩ := called.returned top body runsBack isAReturn returned
    obtain ⟨inv', rest⟩ := ihRest (machineInv_of_step inv2 returned)
    exact ⟨inv', first.trans rest⟩

end Sys2Proof.Machine

namespace Sys2Proof.Proofs

open Sys2Proof.Machine

/-- Settles O25: the pop, then the write of R7 and the jump, which touch nothing else. -/
theorem retGoesToThePoppedValue : Obligations.RetGoesToThePoppedValue := by
  refine ⟨decode_ret, fun s => ⟨_, s.stackPop.1, exec_ret s, ?_⟩⟩
  obtain ⟨-, flags, -, out, input, engine⟩ := sameButCallStack_stackPop s
  exact ⟨popEffect_stackPop s, State.reg_setReg_same _ 7 _, rfl,
    sameRegsBut_of_returnJump (exec_ret s), flags, out, input, engine⟩

/-- Settles O27: JSRR is a call, to the base register of the old state. -/
theorem jsrrGoesToTheOldBaseRegister : Obligations.JsrrGoesToTheOldBaseRegister :=
  ⟨decode_jsrr_word, fun base s memWf =>
    ⟨_, exec_jsrr base s, callEffect_of_callTo memWf (exec_jsrr base s)⟩⟩

/-- Settles O53: the balanced run after the call keeps the entry the return takes. -/
theorem returnsGoToTheInstructionAfterTheirCall :
    Obligations.ReturnsGoToTheInstructionAfterTheirCall := by
  intro s s1 s2 s3 call back inv runsCall isACall notFull stepped balanced runsBack isAReturn
    returned
  have ⟨_, memWf, ⟨_, top⟩, _⟩ := inv
  obtain ⟨-, body⟩ := balanced.keepsEntries (machineInv_of_step inv stepped)
  obtain ⟨pc, kept⟩ := (calledFrom_of_step memWf runsCall isACall notFull stepped).returned top body
    runsBack isAReturn returned
  exact ⟨pc, kept.cursor⟩

end Sys2Proof.Proofs
end

section
/-! What any instruction leaves unchanged of memory, cursor and PC (20_memory.md R30, 10_state.md
R25), which steps stop (20_memory.md R39, 60_exceptions.md R108), and how character input waits
(43_trap.md R103, R104). -/

namespace Sys2Proof.Machine

/-! ### Memory, cursor, PC and wait flag -/

/-- Of memory, cursor, PC and wait flag an instruction writes what the rules list for it. -/
structure WritesOnlyListed (i : Instr) (s t : State) : Prop where
  memory : isStore i = false → isCall i = false → SameMemory s t
  cursor : isCall i = false → isReturn i = false → t.spc = s.spc
  pc : isCall i = false → isReturn i = false → readsFlags i = false → i ≠ .halt →
    (∀ base, i ≠ .jmp base) → t.pc = s.pc
  waiting : isCharInput i = false → t.waiting = s.waiting

/-- Whatever the rules list, an instruction that writes none of the four meets them. -/
theorem writesOnlyListed_of_same (i : Instr) {s t : State} (memory : SameMemory s t)
    (cursor : t.spc = s.spc) (pc : t.pc = s.pc) (waiting : t.waiting = s.waiting) :
    WritesOnlyListed i s t :=
  ⟨fun _ _ => memory, fun _ _ => cursor, fun _ _ _ _ _ => pc, fun _ => waiting⟩

theorem storeFrame_of_memWrite {s t : State} {addr v : Word} (h : memWrite s addr v = .next t) :
    ∃ reports, StoreFrame reports s t := by
  obtain ⟨a, _, rfl⟩ := memWrite_next h
  rw [warn_eq_withReports]
  exact ⟨_, storeFrame_writeIndex s _ a v⟩

theorem writesOnlyListed_of_store {i : Instr} (store : isStore i = true) {s t : State}
    {addr v : Word} (h : memWrite s addr v = .next t) : WritesOnlyListed i s t := by
  obtain ⟨_, -, -, pc, cursor, ⟨-, -, waiting⟩, -⟩ := storeFrame_of_memWrite h
  exact ⟨fun notStore => absurd store (ne_true_of_eq_false notStore), fun _ _ => cursor,
    fun _ _ _ _ _ => pc, fun _ => waiting⟩

theorem writesOnlyListed_of_call {i : Instr} (call : isCall i = true) {s t : State} {target : Word}
    (h : callTo s target = .next t) : WritesOnlyListed i s t := by
  have other {P : Prop} (notCall : isCall i = false) : P :=
    absurd call (ne_true_of_eq_false notCall)
  cases h
  obtain ⟨-, -, -, -, ⟨-, -, waiting⟩, -⟩ := sameButCallStack_stackPush s s.pc
  exact ⟨fun _ => other, fun notCall _ => other notCall, fun notCall _ _ _ _ => other notCall,
    fun _ => waiting⟩

theorem writesOnlyListed_of_charInput {i : Instr} (input : isCharInput i = true) {s t : State}
    (h : charInput s = .next t) : WritesOnlyListed i s t := by
  have other {P : Prop} (notInput : isCharInput i = false) : P :=
    absurd input (ne_true_of_eq_false notInput)
  obtain ⟨_, e⟩ | ⟨c, rest, _, ⟨_, e⟩ | ⟨_, e⟩⟩ := charInput_spec s <;> rw [e] at h <;> cases h
  · exact ⟨fun _ _ _ => rfl, fun _ _ => rfl, fun _ _ _ _ _ => rfl, other⟩
  · exact ⟨fun _ _ _ => rfl, fun _ _ => rfl, fun _ _ _ _ _ => rfl, other⟩

theorem writesOnlyListed_of_exec {i : Instr} {s t : State} (wf : i.wf = true)
    (h : exec i s = .next t) : WritesOnlyListed i s t := by
  cases i with
  | addReg | addImm | andReg | andImm | notReg | lea | unassigned =>
    cases h; exact writesOnlyListed_of_same _ (fun _ => rfl) rfl rfl rfl
  | ld | ldr =>
    simp only [exec, execLd, execLdr] at h
    obtain ⟨a, _, h⟩ := readThen_next h
    cases h
    rw [warn_eq_withReports]
    exact writesOnlyListed_of_same _ (fun _ => rfl) rfl rfl rfl
  | ldi =>
    simp only [exec, execLdi] at h
    obtain ⟨a, _, h⟩ := readThen_next h
    obtain ⟨b, _, h⟩ := readThen_next h
    cases h
    rw [warn_warn_eq_withReports]
    exact writesOnlyListed_of_same _ (fun _ => rfl) rfl rfl rfl
  | out =>
    rw [exec, execOut, charOutput, State.consolePutCr_spec] at h
    cases h; exact writesOnlyListed_of_same _ (fun _ => rfl) rfl rfl rfl
  | puts =>
    obtain ⟨out, reports, e⟩ | ⟨_, _, e⟩ := putString_spec s <;> cases e.symm.trans h
    exact writesOnlyListed_of_same _ (fun _ => rfl) rfl rfl rfl
  | putsp =>
    obtain ⟨out, reports, e⟩ | ⟨_, _, e⟩ := putPackedString_spec s <;> cases e.symm.trans h
    exact writesOnlyListed_of_same _ (fun _ => rfl) rfl rfl rfl
  | trap =>
    rw [exec_trap_of_wf wf] at h
    cases h; exact writesOnlyListed_of_same _ (fun _ => rfl) rfl rfl rfl
  | st | str => exact writesOnlyListed_of_store rfl h
  | sti sr off =>
    simp only [exec, execSti] at h
    obtain ⟨a, _, h⟩ := readThen_next h
    rw [warn_eq_withReports] at h
    have written := writesOnlyListed_of_store (i := .sti sr off) rfl h
    exact ⟨written.memory, written.cursor, written.pc, written.waiting⟩
  | jsr | jsrr => exact writesOnlyListed_of_call rfl h
  | getc | inChar => exact writesOnlyListed_of_charInput rfl h
  | br n z p off =>
    by_cases taken : s.branchTaken n z p = true
    · rw [exec_br_taken taken] at h; cases h
      exact ⟨fun _ _ _ => rfl, fun _ _ => rfl, nofun, fun _ => rfl⟩
    · rw [exec_br_not_taken taken] at h; cases h
      exact writesOnlyListed_of_same _ (fun _ => rfl) rfl rfl rfl
  | jmp base =>
    rw [exec_jmp_of_wf wf] at h
    cases h
    exact ⟨fun _ _ _ => rfl, fun _ _ => rfl, fun _ _ _ _ other => absurd rfl (other base),
      fun _ => rfl⟩
  | halt =>
    cases h
    exact ⟨fun _ _ _ => rfl, fun _ _ => rfl, fun _ _ _ other => absurd rfl other, fun _ => rfl⟩
  | ret | rti =>
    cases h
    obtain ⟨-, -, -, -, ⟨-, -, waiting⟩, -⟩ := sameButCallStack_stackPop s
    exact ⟨fun _ _ => (popEffect_stackPop s).1, nofun, nofun, fun _ => waiting⟩

/-! ### Character input (43_trap.md R97, R98, R103, R104) -/

theorem exec_of_isCharInput {i : Instr} (input : isCharInput i = true) (s : State) :
    exec i s = charInput s := by
  cases i with
  | getc | inChar => rfl
  | _ => cases input

theorem charInput_none {s : State} (none : s.inputPending = []) :
    charInput s = .next { s with waiting := true } := by
  rw [charInput, none]

theorem charInput_interrupt {s : State} {c : Byte} {rest : List Byte}
    (next : s.inputPending = c :: rest) (interrupt : c ∈ s.cfg.interruptChars) :
    charInput s = .fault (.keyboardInterrupt c) := by
  rw [charInput, next]; exact if_pos interrupt

theorem charInput_char {s : State} {c : Byte} {rest : List Byte}
    (next : s.inputPending = c :: rest) (char : c ∉ s.cfg.interruptChars) :
    charInput s = .next ((s.consume c rest).setReg 0 (zext c)) := by
  rw [charInput, next]; exact if_neg char

/-- What a wait leaves of the state its cycle began in: the wait flag and the fetch's report. -/
def waitState (s : State) (a : Nat) : State :=
  { s with waiting := true, reports := (handlerState s a).reports }

theorem dropLatch_handlerState (s : State) (a : Nat) :
    s.dropLatch { handlerState s a with waiting := true } = waitState s a := by
  rw [waitState, handlerState_spec]; rfl

/-- A step that begins to wait is a cycle of a character input without a character. -/
theorem waitState_of_step {s t : State} (h : step s = .next t) (free : s.waiting = false)
    (waits : t.waiting = true) :
    s.halted = false ∧ s.pc ≠ 0x0000 ∧ ∃ a, memIndex s.cfg s.pc = some a ∧ t = waitState s a := by
  obtain ⟨_, rfl⟩ | ⟨_, _, rfl⟩ | ⟨running, pc, a, u, index, ran, ⟨waits, rfl⟩ | ⟨free', rfl⟩⟩ :=
    step_next h
  · exact absurd waits (ne_true_of_eq_false free)
  · exact absurd waits (ne_true_of_eq_false free)
  · refine ⟨running, pc, a, index, ?_⟩
    cases input : isCharInput (decode (s.readIndex a)) with
    | false =>
      have kept := (writesOnlyListed_of_exec (decodeCase_decode _).wf ran).waiting input
      exact absurd waits (ne_true_of_eq_false (kept.trans (handlerState_waiting s a)))
    | true =>
      rw [exec_of_isCharInput input] at ran
      obtain ⟨_, e⟩ | ⟨c, rest, _, ⟨_, e⟩ | ⟨_, e⟩⟩ := charInput_spec (handlerState s a) <;>
        cases e.symm.trans ran
      · exact dropLatch_handlerState s a
      · exact absurd waits Bool.false_ne_true
  · rw [State.boundary_spec] at waits
    exact absurd waits (ne_true_of_eq_false free')

/-- A waiting cycle makes its step as it would have made it from its start (R103). -/
theorem step_waitState {s : State} {a : Nat} (running : s.halted = false) (pc : s.pc ≠ 0x0000)
    (index : memIndex s.cfg s.pc = some a) : step (waitState s a) = step s := by
  have same : handlerState (waitState s a) a = handlerState s a := by
    rw [handlerState_spec, handlerState_spec, waitState, handlerState_spec]
    simp [State.readIndex, State.word]
  rw [step_of_fetch running pc index, step_of_fetch (s := waitState s a) running pc index, same]
  rfl

theorem supplyInput_waitState (s : State) (a : Nat) (cs : List Byte) :
    (waitState s a).supplyInput cs = waitState (s.supplyInput cs) a := by
  rw [waitState, waitState, handlerState_spec, handlerState_spec]; rfl

/-! ### Which steps stop -/

theorem memIndex_of_lt {addr : Word} (low : addr.toNat < memWords) (c : Config) :
    memIndex c addr = some addr.toNat := if_pos low

theorem memIndex_aliasLow {c : Config} (policy : c.oorPolicy = .aliasLow) (addr : Word) :
    memIndex c addr = some (addr.toNat % memWords) := by
  unfold memIndex
  split_ifs with low
  · rw [Nat.mod_eq_of_lt low]
  · rw [policy]
    simp

theorem memIndex_refuse {c : Config} (policy : c.oorPolicy = .refuse) {addr : Word}
    (high : memWords ≤ addr.toNat) : memIndex c addr = none := by
  rw [memIndex, if_neg (Nat.not_lt.2 high), policy]

/-- Where every address reaches a word, an instruction is completed, but for a character input given
an interrupt character. -/
theorem exec_answers {i : Instr} (wf : i.wf = true) {s : State}
    (total : ∀ addr, memIndex s.cfg addr ≠ none) :
    (∃ t, exec i s = .next t) ∨
      ∃ c, exec i s = .fault (.keyboardInterrupt c) ∧ c ∈ s.cfg.interruptChars ∧
        s.inputPending.head? = some c ∧ isCharInput i = true := by
  have reaches (addr : Word) : ∃ a, memIndex s.cfg addr = some a :=
    Option.ne_none_iff_exists'.1 (total addr)
  cases i with
  | br | addReg | addImm | andReg | andImm | notReg | lea | unassigned | jsr | jsrr | ret | rti
  | out | halt => exact .inl ⟨_, rfl⟩
  | ld dr off =>
    obtain ⟨a, index⟩ := reaches (pcRelative s.pc off)
    exact .inl ⟨_, exec_ld_some index dr⟩
  | ldr dr base off =>
    obtain ⟨a, index⟩ := reaches (baseOffset (s.reg base) off)
    exact .inl ⟨_, exec_ldr_some index dr⟩
  | ldi dr off =>
    obtain ⟨a, index⟩ := reaches (pcRelative s.pc off)
    obtain ⟨b, pointed⟩ := reaches (s.readIndex a)
    exact .inl ⟨_, exec_ldi_some index pointed dr⟩
  | st sr off =>
    obtain ⟨a, index⟩ := reaches (pcRelative s.pc off)
    exact .inl ⟨_, exec_st_some index sr⟩
  | str sr base off =>
    obtain ⟨a, index⟩ := reaches (baseOffset (s.reg base) off)
    exact .inl ⟨_, exec_str_some index sr⟩
  | sti sr off =>
    obtain ⟨a, index⟩ := reaches (pcRelative s.pc off)
    obtain ⟨b, pointed⟩ := reaches (s.readIndex a)
    exact .inl ⟨_, exec_sti_some index pointed sr⟩
  | jmp => exact .inl ⟨_, exec_jmp_of_wf wf s⟩
  | trap => exact .inl ⟨_, exec_trap_of_wf wf s⟩
  | puts =>
    obtain ⟨out, reports, e⟩ | ⟨bad, none, _⟩ := putString_spec s
    · exact .inl ⟨_, e⟩
    · exact absurd none (total bad)
  | putsp =>
    obtain ⟨out, reports, e⟩ | ⟨bad, none, _⟩ := putPackedString_spec s
    · exact .inl ⟨_, e⟩
    · exact absurd none (total bad)
  | getc | inChar =>
    obtain ⟨_, e⟩ | ⟨c, rest, next, ⟨interrupt, e⟩ | ⟨_, e⟩⟩ := charInput_spec s
    · exact .inl ⟨_, e⟩
    · exact .inr ⟨c, e, interrupt, by rw [next]; rfl, rfl⟩
    · exact .inl ⟨_, e⟩

theorem step_of_fetch_none {s : State} (running : s.halted = false) (pc : s.pc ≠ 0x0000)
    (none : memIndex s.cfg s.pc = none) : step s = .refused (.outOfRange s.pc) := by
  unfold step runOne
  rw [running, if_neg Bool.false_ne_true, if_neg pc, cycle_none none]

theorem stringWalk_none {s : State} {addr : Word} (none : memIndex s.cfg addr = none)
    (emit : State → Word → State) (fuel : Nat) :
    stringWalk emit (fuel + 1) addr s = .refused (.outOfRange addr) := by
  rw [stringWalk, none]

end Sys2Proof.Machine

namespace Sys2Proof.Proofs

open Sys2Proof.Machine

/-- Settles O45: what each instruction writes, with the wait flag left out. -/
theorem onlyListedInstructionsChangeMemoryCursorAndPc :
    Obligations.OnlyListedInstructionsChangeMemoryCursorAndPc := by
  intro i s t wf h
  obtain ⟨memory, cursor, pc, -⟩ := writesOnlyListed_of_exec wf h
  exact ⟨memory, cursor, pc⟩

/-- Settles O8, in the two ranges of the address. -/
theorem addressReductionFollowsThePolicy : Obligations.AddressReductionFollowsThePolicy :=
  fun c addr => ⟨fun low => memIndex_of_lt low c, fun policy => memIndex_aliasLow policy addr,
    fun policy => memIndex_refuse policy⟩

/-- Settles O22: each access and the fetch go through `memIndex`, and end there where it has no
word. -/
theorem accessesOutOfRangeAreRefusedWhereThePolicySaysSo :
    Obligations.AccessesOutOfRangeAreRefusedWhereThePolicySaysSo := by
  intro r base off off6 s
  refine ⟨fun none => ⟨exec_ld_none none r, exec_ldi_none none r, exec_st_none none r,
      exec_sti_none none r⟩, fun a index none => ⟨?_, ?_⟩,
    fun none => ⟨exec_ldr_none none r, exec_str_none none r⟩,
    fun none => ⟨stringWalk_none none _ _, stringWalk_none none _ _⟩, step_of_fetch_none⟩
  · rw [exec_ldi_pointer index]
    exact readThen_none ((State.warn_cfg s _ a).symm ▸ none) _
  · rw [exec_sti_pointer index]
    exact memWrite_none ((State.warn_cfg s _ a).symm ▸ none) _

/-- Settles O47: every address reaches a word, and a cycle ends as its handler does. -/
theorem onlyAnInterruptCharacterStopsARun : Obligations.OnlyAnInterruptCharacterStopsARun := by
  intro s policy
  cases halted : s.halted with
  | true => exact .inl ⟨s, step_of_halted halted⟩
  | false =>
    by_cases pc : s.pc = 0x0000
    · exact .inl ⟨_, step_of_pc_zero halted pc⟩
    have index := memIndex_aliasLow policy s.pc
    rw [step_of_fetch halted pc index]
    have total (addr : Word) :
        memIndex (handlerState s (s.pc.toNat % memWords)).cfg addr ≠ none := by
      simp [memIndex_aliasLow policy]
    obtain ⟨t, ran⟩ | ⟨c, ran, interrupt, next, input⟩ :=
      exec_answers (decodeCase_decode _).wf total
    · rw [ran]
      by_cases waits : t.waiting = true
      · exact .inl ⟨_, finishCycle_of_waiting waits s⟩
      · exact .inl ⟨_, finishCycle_of_not_waiting waits s⟩
    · rw [ran]
      exact .inr ⟨c, _, rfl, by simpa using interrupt, by simpa using next,
        ⟨_, ⟨halted, pc, _, index, rfl⟩, rfl⟩, input⟩

/-- Settles O49: the handler ends the run, and the cycle with it. -/
theorem interruptCharacterEndsTheRun : Obligations.InterruptCharacterEndsTheRun := by
  intro s i c rest runs input next interrupt
  obtain ⟨-, a, cycles⟩ := step_of_runs runs
  rw [cycles, exec_of_isCharInput input,
    charInput_interrupt (by simpa using next) (by simpa using interrupt)]
  rfl

/-- Settles O48: a wait leaves `waitState`, and a step from there is the step from the cycle's
start. -/
theorem characterInputWaitsWithoutCommitting :
    Obligations.CharacterInputWaitsWithoutCommitting := by
  refine ⟨?_, fun s t c cs free h waits => ?_⟩
  · rintro s i ⟨w, ⟨running, pc, a, index, rfl⟩, rfl⟩ input none
    have stepped : step s = .next (waitState s a) := by
      rw [step_of_fetch running pc index, exec_of_isCharInput input,
        charInput_none (by simpa using none), finishCycle_of_waiting rfl, dropLatch_handlerState]
    exact ⟨_, stepped, rfl, fun _ => rfl, rfl, ⟨rfl, rfl, rfl⟩, ⟨rfl, rfl, rfl, rfl, rfl⟩,
      fun _ => rfl, rfl, rfl, rfl, none, (step_waitState running pc index).trans stepped⟩
  · obtain ⟨running, pc, a, index, rfl⟩ := waitState_of_step h free waits
    rw [supplyInput_waitState]
    exact step_waitState running pc index

end Sys2Proof.Proofs
end

section
/-! TRAP and its services (43_trap.md R95 to R102) and the unassigned opcode (44_unassigned.md
R105). Each service is one of the shared operations; a string walk is followed read by read, its
output and its warnings a list over the words read so far. -/

namespace Sys2Proof.Machine

/-! ### Character services (R97 to R99, R103, R104) -/

/-- From `s` to `t` the next character `c`, with `rest` behind it, has gone to R0, zero-extended. -/
def CharRead (c : Byte) (rest : List Byte) (s t : State) : Prop :=
  (t.reg 0).toNat = c.toNat ∧ t.inputConsumed = s.inputConsumed ++ [c] ∧ t.inputPending = rest ∧
    t.waiting = false ∧ SameRegsBut 0 s t ∧ SameFlags s t ∧ t.pc = s.pc ∧ SameMemory s t ∧
    t.spc = s.spc ∧ t.consoleOut = s.consoleOut ∧ t.reports = s.reports ∧ SameEngine s t

theorem charRead_of_charInput {s t : State} {c : Byte} {rest : List Byte}
    (h : t = (s.consume c rest).setReg 0 (zext c)) : CharRead c rest s t := by
  subst h
  refine ⟨?_, rfl, rfl, rfl, fun q ne => State.reg_setReg_ne _ _ ne, ⟨rfl, rfl, rfl⟩, rfl,
    fun _ => rfl, rfl, rfl, rfl, ⟨rfl, rfl, rfl, rfl, rfl⟩⟩
  rw [State.reg_setReg_same]
  exact BitVec.toNat_setWidth_of_le (by decide)

/-- The character-input service in its three cases, for either of its two instructions. -/
theorem charInput_cases {i : Instr} (input : isCharInput i = true) :
    (∀ (s : State) (c : Byte) (rest : List Byte), s.inputPending = c :: rest →
      c ∉ s.cfg.interruptChars → ∃ t, exec i s = .next t ∧ CharRead c rest s t) ∧
    (∀ (s : State) (c : Byte) (rest : List Byte), s.inputPending = c :: rest →
      c ∈ s.cfg.interruptChars → exec i s = .fault (.keyboardInterrupt c)) ∧
    ∀ s : State, s.inputPending = [] → exec i s = .next { s with waiting := true } := by
  simp only [exec_of_isCharInput input]
  exact ⟨fun s c rest next char => ⟨_, charInput_char next char, charRead_of_charInput rfl⟩,
    fun _ _ _ => charInput_interrupt, fun _ => charInput_none⟩

/-! ### The string walk (R100, R101) -/

/-- The index of the `k`-th word of a string that begins at index `a`. -/
def stringIndex (a k : Nat) : Nat := (a + k) % memWords

/-- The address of the `k`-th read of a string at `addr`, which reaches index `a`. -/
def stringAddr (addr : Word) (a k : Nat) : Word :=
  if k = 0 then addr else BitVec.ofNat 16 (stringIndex a k)

theorem stringIndex_lt (a k : Nat) : stringIndex a k < memWords := Nat.mod_lt _ (by decide)

theorem nextStringAddr_stringIndex (addr : Word) (a k : Nat) :
    nextStringAddr (stringIndex a k) = stringAddr addr a (k + 1) := by
  rw [nextStringAddr, stringAddr, if_neg k.succ_ne_zero, stringIndex, stringIndex, Nat.mod_add_mod,
    Nat.add_assoc]

theorem memIndex_stringAddr {c : Config} {addr : Word} {a : Nat}
    (reaches : memIndex c addr = some a) (k : Nat) :
    memIndex c (stringAddr addr a k) = some (stringIndex a k) := by
  unfold stringAddr
  split_ifs with first
  · rw [reaches, first, stringIndex, Nat.add_zero, Nat.mod_eq_of_lt (memIndex_lt reaches)]
  · have inside := stringIndex_lt a k
    have value : (BitVec.ofNat 16 (stringIndex a k)).toNat = stringIndex a k :=
      Nat.mod_eq_of_lt (inside.trans (by decide))
    rw [memIndex_of_lt (value.symm ▸ inside), value]

/-- The state after `out` has gone to the console and `reports` been made. -/
def State.after (s : State) (out : List Byte) (reports : List Report) : State :=
  { s with consoleOut := s.consoleOut ++ out, reports := s.reports ++ reports }

/-- What the first `n` words of the string at index `a` output. -/
def stringOutput (bytes : Config → Word → List Byte) (s : State) (a n : Nat) : List Byte :=
  (List.range n).flatMap fun k => bytes s.cfg (loaded s (stringIndex a k))

/-- What the first `n` reads of the string at `addr` report. -/
def stringReports (s : State) (addr : Word) (a n : Nat) : List Report :=
  (List.range n).flatMap fun k => warnings s (stringAddr addr a k) (stringIndex a k)

theorem stringOutput_succ (bytes : Config → Word → List Byte) (s : State) (a n : Nat) :
    stringOutput bytes s a (n + 1) =
      stringOutput bytes s a n ++ bytes s.cfg (loaded s (stringIndex a n)) := by
  simp [stringOutput, List.range_succ]

theorem stringReports_succ (s : State) (addr : Word) (a n : Nat) :
    stringReports s addr a (n + 1) =
      stringReports s addr a n ++ warnings s (stringAddr addr a n) (stringIndex a n) := by
  simp [stringReports, List.range_succ]

theorem loaded_after (s : State) (out : List Byte) (reports : List Report) (a : Nat) :
    loaded (s.after out reports) a = loaded s a := rfl

theorem warn_after (s : State) (out : List Byte) (reports : List Report) (addr : Word) (a : Nat) :
    (s.after out reports).warn addr a = s.after out (reports ++ warnings s addr a) := by
  rw [warn_eq_warnings, State.after, State.after, ← List.append_assoc]
  rfl

theorem stringWalk_read_zero {s : State} {addr : Word} {a : Nat}
    (index : memIndex s.cfg addr = some a) (zero : loaded s a = 0x0000)
    (emit : State → Word → State) (fuel : Nat) :
    stringWalk emit (fuel + 1) addr s = .next (s.warn addr a) := by
  rw [stringWalk, index]
  exact if_pos zero

theorem stringWalk_read_nonzero {s : State} {addr : Word} {a : Nat}
    (index : memIndex s.cfg addr = some a) (nonzero : loaded s a ≠ 0x0000)
    (emit : State → Word → State) (fuel : Nat) :
    stringWalk emit (fuel + 1) addr s =
      stringWalk emit fuel (nextStringAddr a) (emit (s.warn addr a) (loaded s a)) := by
  rw [stringWalk, index]
  exact if_neg nonzero

section
variable {emit : State → Word → State} {bytes : Config → Word → List Byte}
variable (emits : ∀ s w, emit s w = { s with consoleOut := s.consoleOut ++ bytes s.cfg w })
include emits

theorem emit_after (s : State) (out : List Byte) (reports : List Report) (w : Word) :
    emit (s.after out reports) w = s.after (out ++ bytes s.cfg w) reports := by
  rw [emits, State.after, State.after, ← List.append_assoc]

variable {s : State} {addr : Word} {a : Nat} (reaches : memIndex s.cfg addr = some a)
include reaches

/-- The walk past words that are not zero. -/
theorem stringWalk_nonzero {n : Nat} (nonzero : ∀ k, k < n → loaded s (stringIndex a k) ≠ 0x0000)
    (fuel : Nat) :
    stringWalk emit (fuel + n) addr s =
      stringWalk emit fuel (stringAddr addr a n)
        (s.after (stringOutput bytes s a n) (stringReports s addr a n)) := by
  induction n generalizing fuel with
  | zero => simp [stringAddr, State.after, stringOutput, stringReports]
  | succ n ih =>
    have walked := ih (fun k less => nonzero k (less.trans n.lt_succ_self)) (fuel + 1)
    rw [← Nat.add_assoc, Nat.add_right_comm, walked,
      stringWalk_read_nonzero (s := s.after _ _) (memIndex_stringAddr reaches n)
        (nonzero n n.lt_succ_self), loaded_after, warn_after, emit_after emits, ← stringOutput_succ,
      ← stringReports_succ, nextStringAddr_stringIndex]

/-- The walk that comes to a zero word. -/
theorem stringWalk_zero {n : Nat} (nonzero : ∀ k, k < n → loaded s (stringIndex a k) ≠ 0x0000)
    (zero : loaded s (stringIndex a n) = 0x0000) {fuel : Nat} (enough : n < fuel) :
    stringWalk emit fuel addr s =
      .next (s.after (stringOutput bytes s a n) (stringReports s addr a (n + 1))) := by
  obtain ⟨left, rfl⟩ : ∃ left, fuel = left + 1 + n := ⟨fuel - n - 1, by omega⟩
  rw [stringWalk_nonzero emits reaches nonzero,
    stringWalk_read_zero (s := s.after _ _) (memIndex_stringAddr reaches n) zero, warn_after,
    ← stringReports_succ]

end

/-- Within MEM_WORDS reads a string comes to a zero word, the status word at the latest (R100). -/
theorem exists_string_end {s : State} (cfgWf : s.cfg.wf = true) (a : Nat) :
    ∃ n, n < memWords ∧ (∀ k, k < n → loaded s (stringIndex a k) ≠ 0x0000) ∧
      loaded s (stringIndex a n) = 0x0000 := by
  have status : s.cfg.dsrAddr < memWords := by
    simp only [Config.wf, Bool.and_eq_true, decide_eq_true_eq] at cfgWf
    exact cfgWf.1.1.2.2.2.2.1
  have inRange : ∃ k < memWords, loaded s (stringIndex a k) = 0x0000 := by
    refine ⟨(s.cfg.dsrAddr + (memWords - a % memWords)) % memWords, Nat.mod_lt _ (by decide),
      if_pos ?_⟩
    unfold stringIndex memWords at *
    omega
  have found : ∃ k, loaded s (stringIndex a k) = 0x0000 := inRange.imp fun _ h => h.2
  obtain ⟨k, inside, zero⟩ := inRange
  exact ⟨Nat.find found, (Nat.find_min' found zero).trans_lt inside,
    fun j less => Nat.find_min found less, Nat.find_spec found⟩

/-- From `s` to `t` the string at `addr`, of `n` words from index `a`, has been output: nothing else
but the reports changes. -/
def StringPut (bytes : Config → Word → List Byte) (addr : Word) (a n : Nat) (s t : State) : Prop :=
  t.consoleOut = s.consoleOut ++ stringOutput bytes s a n ∧
    t.reports = s.reports ++ stringReports s addr a (n + 1) ∧ SameRegs s t ∧ SameFlags s t ∧
    t.pc = s.pc ∧ SameMemory s t ∧ t.spc = s.spc ∧ SameInput s t ∧ SameEngine s t

theorem exists_stringPut {emit : State → Word → State} {bytes : Config → Word → List Byte}
    (emits : ∀ s w, emit s w = { s with consoleOut := s.consoleOut ++ bytes s.cfg w })
    {s : State} (cfgWf : s.cfg.wf = true) {addr : Word} {a : Nat}
    (reaches : memIndex s.cfg addr = some a) :
    ∃ t n, stringWalk emit memWords addr s = .next t ∧ n < memWords ∧
      (∀ k, k < n → loaded s (stringIndex a k) ≠ 0x0000) ∧ loaded s (stringIndex a n) = 0x0000 ∧
      StringPut bytes addr a n s t := by
  obtain ⟨n, inside, nonzero, zero⟩ := exists_string_end cfgWf a
  exact ⟨_, n, stringWalk_zero emits reaches nonzero zero inside, inside, nonzero, zero, rfl, rfl,
    fun _ => rfl, ⟨rfl, rfl, rfl⟩, rfl, fun _ => rfl, rfl, ⟨rfl, rfl, rfl⟩,
    ⟨rfl, rfl, rfl, rfl, rfl⟩⟩

/-- The bytes of a packed word, in the claims' terms. -/
theorem putspBytes_eq_crBytes (c : Config) (w : Word) :
    putspBytes c w = crBytes c.crlfAll (w.setWidth 8) ++
      if slice w 15 8 = 0 ∧ c.putspSkipZeroHigh = true then []
      else crBytes c.crlfAll (BitVec.ofNat 8 (slice w 15 8)) := by
  have zero : highByte w = 0x00 ↔ slice w 15 8 = 0 := by
    have small : slice w 15 8 < 256 := Nat.mod_lt _ (by decide)
    rw [highByte_eq_slice, ← BitVec.toNat_inj, BitVec.toNat_ofNat, Nat.mod_eq_of_lt small]
    rfl
  have shown : highByte w ≠ 0x00 ∨ c.putspSkipZeroHigh = false ↔
      ¬ (slice w 15 8 = 0 ∧ c.putspSkipZeroHigh = true) := by
    rw [not_and_or, Bool.not_eq_true, ← zero]
  simp only [putspBytes, putsBytes_eq_crBytes, crBytes_eq, shown, ite_not]
  rw [highByte_eq_slice]

end Sys2Proof.Machine

namespace Sys2Proof.Proofs

open Sys2Proof.Machine

/-- Settles O29: the opcode is read off the word, and the meaning is the state itself. -/
theorem unassignedOpcodeDoesNothing : Obligations.UnassignedOpcodeDoesNothing :=
  ⟨decode_unassigned, fun _ => rfl⟩

/-- Settles O30: outside the service set the dispatch on the vector comes to its last case. -/
theorem trapOutsideTheServiceSetDoesNothing : Obligations.TrapOutsideTheServiceSetDoesNothing :=
  ⟨fun ignored vec other => (decode_trap ignored vec).trans (decodeTrap_of_not_service other),
    fun _ s other => exec_trap_of_wf (decide_eq_true other) s⟩

/-- Settles O31: GETC is the character-input service. -/
theorem getcReadsOneCharacterIntoR0 : Obligations.GetcReadsOneCharacterIntoR0 :=
  ⟨fun ignored => decode_trap ignored 0x20, charInput_cases rfl⟩

/-- Settles O32: IN is the character-input service. -/
theorem inReadsOneCharacterWithoutEcho : Obligations.InReadsOneCharacterWithoutEcho :=
  ⟨fun ignored => decode_trap ignored 0x23, charInput_cases rfl⟩

/-- Settles O33: OUT only adds the byte, and the LF of a CR, to the console output. -/
theorem outWritesTheLowByteOfR0 : Obligations.OutWritesTheLowByteOfR0 := by
  refine ⟨fun ignored => decode_trap ignored 0x21, fun s => ⟨_, rfl, ?_⟩⟩
  rw [State.consolePutCr_spec, crBytes_eq, lowByte_eq_setWidth]
  exact ⟨rfl, fun _ => rfl, ⟨rfl, rfl, rfl⟩, rfl, fun _ => rfl, rfl, rfl, ⟨rfl, rfl, rfl⟩,
    ⟨rfl, rfl, rfl, rfl, rfl⟩⟩

/-- Settles O36: HALT is one write of the PC. -/
theorem haltSetsThePcToZero : Obligations.HaltSetsThePcToZero :=
  ⟨fun ignored => decode_trap ignored 0x25, fun s => ⟨_, rfl, rfl, sameButPc_setPc s 0x0000⟩⟩

/-- Settles O34: the walk of PUTS to the first zero word. -/
theorem putsOutputsOneByteOfEachWord : Obligations.PutsOutputsOneByteOfEachWord := by
  refine ⟨fun ignored => decode_trap ignored 0x22, fun s a cfgWf reaches => ?_⟩
  have emits (s : State) (w : Word) : putsWord s w =
      { s with consoleOut := s.consoleOut ++ crBytes s.cfg.crlfAll (w.setWidth 8) } := by
    rw [putsWord_spec, putsBytes_eq_crBytes]
  exact exists_stringPut (bytes := fun c w => crBytes c.crlfAll (w.setWidth 8)) emits cfgWf reaches

/-- Settles O35: the walk of PUTSP to the first zero word. -/
theorem putspOutputsTwoBytesOfEachWord : Obligations.PutspOutputsTwoBytesOfEachWord := by
  refine ⟨fun ignored => decode_trap ignored 0x24, fun s a cfgWf reaches => ?_⟩
  have put := exists_stringPut putspWord_spec cfgWf reaches
  simp only [StringPut, stringOutput, putspBytes_eq_crBytes] at put
  exact put

/-- Settles O7: an extended offset has the offset's signed value. -/
theorem effectiveAddressesAreSumsModulo65536 : Obligations.EffectiveAddressesAreSumsModulo65536 :=
  ⟨pcRelative_eq_ofInt (by decide), pcRelative_eq_ofInt (by decide), add_sext (by decide)⟩

end Sys2Proof.Proofs
end

section
/-! Memory as data, and the host's operations on the machine (20_memory.md R52;
70_reset_and_hazards.md R122 to R127): loading, placing a word, the run driver as iterated steps,
and the invariant of sessions. -/

namespace Sys2Proof.Machine

/-! ### Equal memories are equal data (log 1) -/

theorem Memory.read_head (k : Nat) (w : Word) (rest : Memory) :
    Memory.read ((k, w) :: rest) k = w :=
  if_pos rfl

theorem Memory.read_tail {k a : Nat} (ne : a ≠ k) (w : Word) (rest : Memory) :
    Memory.read ((k, w) :: rest) a = Memory.read rest a :=
  if_neg ne.symm

/-- A memory with nothing listed up to `k` does not read as one whose first index is `k`. -/
theorem Memory.read_ne_of_below {lo k : Nat} {w : Word} {rest m : Memory}
    (h : Memory.wfFrom lo ((k, w) :: rest) = true) (below : Memory.wfFrom (k + 1) m = true) :
    ¬ ∀ a, Memory.read ((k, w) :: rest) a = Memory.read m a := by
  intro same
  obtain ⟨⟨_, _, nonzero⟩, _⟩ := Memory.wfFrom_cons.1 h
  exact nonzero ((Memory.read_head k w rest).symm.trans ((same k).trans
    (Memory.read_below below k.lt_succ_self)))

/-- Canonical memories that read alike have the same list: their first indices are the same, with
the same word, and their tails read alike. -/
theorem Memory.eq_of_read_eq {lo : Nat} {m m' : Memory} (h : Memory.wfFrom lo m = true)
    (h' : Memory.wfFrom lo m' = true) (same : ∀ a, Memory.read m a = Memory.read m' a) :
    m = m' := by
  induction m generalizing lo m' with
  | nil =>
    cases m' with
    | nil => rfl
    | cons cell rest => exact absurd (fun a => (same a).symm) (Memory.read_ne_of_below h' rfl)
  | cons cell rest ih =>
    obtain ⟨k, w⟩ := cell
    cases m' with
    | nil => exact absurd same (Memory.read_ne_of_below h rfl)
    | cons cell' rest' =>
      obtain ⟨k', w'⟩ := cell'
      obtain ⟨⟨_, inside, nonzero⟩, tail⟩ := Memory.wfFrom_cons.1 h
      obtain ⟨⟨_, inside', nonzero'⟩, tail'⟩ := Memory.wfFrom_cons.1 h'
      obtain less | rfl | greater := lt_trichotomy k k'
      · exact absurd same (Memory.read_ne_of_below h
          (Memory.wfFrom_cons.2 ⟨⟨less, inside', nonzero'⟩, tail'⟩))
      · have words : w = w' := by simpa only [Memory.read_head] using same k
        have tails : rest = rest' := ih tail tail' fun a => by
          by_cases first : a = k
          · rw [Memory.read_below tail (by omega), Memory.read_below tail' (by omega)]
          · simpa only [Memory.read_tail first] using same a
        rw [words, tails]
      · exact absurd (fun a => (same a).symm) (Memory.read_ne_of_below h'
          (Memory.wfFrom_cons.2 ⟨⟨greater, inside, nonzero⟩, tail⟩))

/-! ### Loading and placing (R122, R123) -/

theorem load_of_begun {s : State} (begun : s.beforeFirstCycle = false)
    (image : Option (List Word)) : load image s = .refused .hostOutOfTurn :=
  if_neg (by simp [begun])

theorem load_of_fits {s : State} {base : Word} {ws : List Word} (before : s.beforeFirstCycle = true)
    (fits : base.toNat + ws.length ≤ memWords) :
    load (some (base :: ws)) s =
      .next ((s.storeWords base.toNat ws).noteLoadBase base.toNat) := by
  rw [load, if_pos before]
  exact if_neg (Nat.not_lt.2 fits)

theorem load_of_too_large {s : State} {base : Word} {ws : List Word}
    (before : s.beforeFirstCycle = true) (large : memWords < base.toNat + ws.length) :
    load (some (base :: ws)) s = .fault .imageTooLarge := by
  rw [load, if_pos before]
  exact if_pos large

theorem State.beforeFirstCycle_of_begun {s : State} (begun : s.waiting = true ∨ s.counter ≠ 0) :
    s.beforeFirstCycle = false := by
  rw [Bool.eq_false_iff, ne_eq, State.beforeFirstCycle_iff]
  rintro ⟨free, _, zero⟩
  exact begun.elim (fun waits => absurd waits (ne_true_of_eq_false free)) (absurd zero)

/-- A machine with a word stored where its PC points fetches that word. -/
theorem fetches_placed {s : State} (memWf : Memory.wf s.mem = true) {entry : Word} {a : Nat}
    (pc : entry ≠ 0x0000) (index : memIndex s.cfg entry = some a) (notStatus : a ≠ s.cfg.dsrAddr)
    (w : Word) :
    Fetches (({ s with pc := entry, halted := false, waiting := false } : State).setWord a w) w :=
  ⟨rfl, pc, a, index, (if_neg notStatus).trans (Memory.read_write_same memWf a w)⟩

/-- The entry a word is placed at: not 0x0000, and its address reaches a word that is not the status
word. -/
theorem exists_entry (s : State) :
    (if s.canFetch then s.pc else spareEntry s.cfg) ≠ 0x0000 ∧
      ∃ a, memIndex s.cfg (if s.canFetch then s.pc else spareEntry s.cfg) = some a ∧
        a ≠ s.cfg.dsrAddr := by
  cases fetch : s.canFetch with
  | true =>
    simp only [State.canFetch, Bool.and_eq_true, decide_eq_true_eq] at fetch
    obtain ⟨⟨_, pc⟩, reaches⟩ := fetch
    rw [if_pos rfl]
    cases index : memIndex s.cfg s.pc with
    | none => rw [index] at reaches; exact absurd rfl reaches
    | some a => rw [index] at reaches; exact ⟨pc, a, rfl, reaches⟩
  | false =>
    rw [if_neg Bool.false_ne_true, spareEntry]
    split_ifs with status
    · exact ⟨by decide, 0x3001, memIndex_of_lt (by decide) _, by rw [status]; decide⟩
    · exact ⟨by decide, 0x3000, memIndex_of_lt (by decide) _, Ne.symm status⟩

theorem fetches_placeFetchWord {s : State} (memWf : Memory.wf s.mem = true) (w : Word) :
    Fetches (s.placeFetchWord w) w := by
  obtain ⟨pc, a, index, notStatus⟩ := exists_entry s
  have fetches := fetches_placed memWf pc index notStatus w
  rw [State.placeFetchWord]
  simp only [index, Option.getD_some]
  exact fetches

/-! ### The run driver (R125, R127) -/

theorem stepTimes_succ {s t : State} (h : step s = .next t) (n : Nat) :
    stepTimes (n + 1) s = stepTimes n t := by
  rw [stepTimes, h]; rfl

theorem stepTimes_of_halted {s : State} (halted : s.halted = true) (n : Nat) :
    stepTimes n s = .next s := by
  induction n with
  | zero => rfl
  | succ n ih => rw [stepTimes_succ (step_of_halted halted), ih]

/-- Of a machine that runs, a step that does not wait counts one cycle, and one that waits none. -/
theorem counter_of_step {s t : State} (h : step s = .next t) (running : s.halted = false)
    (pc : s.pc ≠ 0x0000) : t.counter = if t.waiting then s.counter else s.counter + 1 := by
  obtain ⟨counted, free, _⟩ | ⟨same, _, halted | zero | waits⟩ :=
    Proofs.counterCountsCommittedCycles s t h
  · rw [counted, free]; rfl
  · exact absurd halted (ne_true_of_eq_false running)
  · exact absurd zero pc
  · rw [same, waits]; rfl

theorem runLoop_of_step {s t : State} (h : step s = .next t) (running : s.halted = false)
    (pc : s.pc ≠ 0x0000) (n : Nat) :
    runLoop (n + 1) s = if t.waiting then .blocked t (some (n + 1)) else runLoop n t := by
  rw [runLoop_running running pc, h]

theorem agreesWithSteps_of_step {s t : State} (h : step s = .next t)
    (counted : t.counter = s.counter + 1) {n : Nat} {e : Session} (agrees : AgreesWithSteps n t e) :
    AgreesWithSteps (n + 1) s e := by
  cases e with
  | ready u =>
    obtain ⟨steps, count⟩ := agrees
    exact ⟨(stepTimes_succ h n).trans steps, fun running => by rw [count running]; omega⟩
  | blocked u left =>
    obtain ⟨j, less, rfl, steps, waits, count⟩ := agrees
    exact ⟨j + 1, by omega, by rw [Nat.add_sub_add_right], (stepTimes_succ h _).trans steps, waits,
      by omega⟩
  | terminated f last =>
    obtain ⟨steps, j, less, lasts⟩ := agrees
    exact ⟨(stepTimes_succ h n).trans steps, j + 1, by omega, (stepTimes_succ h j).trans lasts⟩
  | closed => exact agrees
  | refused q => exact (stepTimes_succ h n).trans agrees

theorem agreesWithSteps_halted {s t : State} {n : Nat} (steps : stepTimes n s = .next t)
    (halted : t.halted = true) : AgreesWithSteps n s (.ready t) :=
  ⟨steps, fun running => absurd halted (ne_true_of_eq_false running)⟩

/-- The loop of a machine that runs comes to what its steps come to. -/
theorem agreesWithSteps_runLoop {s : State} (running : s.halted = false) (pc : s.pc ≠ 0x0000)
    (n : Nat) : AgreesWithSteps n s (runLoop n s) := by
  induction n generalizing s with
  | zero => exact ⟨rfl, fun _ => rfl⟩
  | succ n ih =>
    cases h : step s with
    | fault f =>
      rw [runLoop_running running pc, h]
      exact ⟨by rw [stepTimes, h]; rfl, 0, n.succ_pos, rfl⟩
    | refused q =>
      rw [runLoop_running running pc, h]
      change stepTimes (n + 1) s = .refused q
      rw [stepTimes, h]; rfl
    | next t =>
      have counted := counter_of_step h running pc
      rw [runLoop_of_step h running pc]
      cases waits : t.waiting with
      | true =>
        rw [waits] at counted
        exact ⟨0, n.succ_pos, rfl, stepTimes_succ h 0, waits, counted⟩
      | false =>
        rw [waits] at counted
        refine agreesWithSteps_of_step h counted ?_
        cases halted : t.halted with
        | true =>
          rw [runLoop_halted halted]
          exact agreesWithSteps_halted (stepTimes_of_halted halted n) halted
        | false => exact ih halted (pc_of_step h halted)

theorem boundary_of_running {s : State} (pc : s.pc ≠ 0x0000) : s.boundary = s := if_neg pc

theorem boundary_of_pc_zero {s : State} (zero : s.pc = 0x0000) :
    s.boundary = { s with halted := true } := if_pos zero

theorem boundary_of_halted {s : State} (halted : s.halted = true) : s.boundary = s := by
  rw [State.boundary_spec, halted, Bool.true_or, ← halted]

theorem agreesWithSteps_runFor {s : State} (free : s.waiting = false) (n : Nat) :
    AgreesWithSteps (n + 1) s (runFor (n + 1) s) := by
  rw [runFor_of_not_waiting free]
  cases halted : s.halted with
  | true =>
    rw [boundary_of_halted halted, runLoop_halted halted]
    exact agreesWithSteps_halted (stepTimes_of_halted halted _) halted
  | false =>
    by_cases zero : s.pc = 0x0000
    · rw [boundary_of_pc_zero zero, runLoop_halted rfl]
      exact agreesWithSteps_halted ((stepTimes_succ (step_of_pc_zero halted zero) n).trans
        (stepTimes_of_halted rfl n)) rfl
    · rw [boundary_of_running zero]
      exact agreesWithSteps_runLoop halted zero (n + 1)

/-- A loop that has halted, stopped or begun to wait stands there for every longer bound. -/
theorem untilHalt_runLoop_mono {n m : Nat} (le : n ≤ m) {s : State} {e : Session}
    (h : (runLoop n s).untilHalt = some e) : (runLoop m s).untilHalt = some e := by
  induction n generalizing m s with
  | zero =>
    have halted : s.halted = true := by
      by_contra running
      rw [runLoop, Session.untilHalt, if_neg running] at h
      cases h
    rwa [runLoop_halted halted] at h ⊢
  | succ n ih =>
    obtain ⟨m, rfl⟩ : ∃ k, m = k + 1 := ⟨m - 1, by omega⟩
    rw [runLoop] at h ⊢
    split_ifs at h ⊢ with halted
    · exact h
    · cases cycled : cycle s with
      | fault | refused => rw [cycled] at h; exact h
      | next t =>
        rw [cycled] at h
        dsimp only at h ⊢
        split_ifs at h ⊢ with waits
        · exact h
        · exact ih (Nat.le_of_succ_le_succ le) h

theorem runToHalt_mono {n m : Nat} (le : n ≤ m) {s : State} {e : Session}
    (h : runToHalt n s = some e) : runToHalt m s = some e := by
  unfold runToHalt at h ⊢
  cases waits : s.waiting with
  | true => rwa [runFor_of_waiting waits] at h ⊢
  | false =>
    rw [runFor_of_not_waiting waits] at h ⊢
    exact untilHalt_runLoop_mono le h

theorem halted_of_untilHalt {e : Session} {t : State} (h : e.untilHalt = some (.ready t)) :
    t.halted = true := by
  cases e with
  | ready s =>
    rw [Session.untilHalt] at h
    split_ifs at h with halted
    cases h
    exact halted
  | _ => cases h

/-! ### The invariant of sessions (R126, R127) -/

theorem machineInv_boundary {s : State} (inv : MachineInv s) (free : s.waiting = false) :
    MachineInv s.boundary := by
  rw [machineInv_iff] at inv ⊢
  obtain ⟨cfgWf, memWf, cursor, flags, halted, _⟩ := inv
  rw [State.boundary_spec]
  refine ⟨cfgWf, memWf, cursor, flags, fun halts => ?_, fun waits => ?_⟩
  · obtain old | zero := Bool.or_eq_true_iff.1 halts
    · exact halted old
    · exact of_decide_eq_true zero
  · exact absurd waits (ne_true_of_eq_false free)

/-- The loop leaves the invariant of sessions, where it makes the step that a waiting machine needs.
-/
theorem sessionInv_runLoop {n : Nat} {s : State} (inv : MachineInv s)
    (pc : s.halted = false → s.pc ≠ 0x0000) (wait : s.waiting = true → n ≠ 0) :
    SessionInv (runLoop n s) := by
  induction n generalizing s with
  | zero => exact ⟨inv, Bool.eq_false_iff.2 fun waits => wait waits rfl⟩
  | succ n ih =>
    cases halted : s.halted with
    | true =>
      rw [runLoop_halted halted]
      refine ⟨inv, Bool.eq_false_iff.2 fun waits => ?_⟩
      obtain ⟨-, -, -, -, -, -, -, running⟩ := inv
      exact absurd halted (ne_true_of_eq_false (running waits).1)
    | false =>
      cases h : step s with
      | fault f => rw [runLoop_running halted (pc halted), h]; exact inv
      | refused q => rw [runLoop_running halted (pc halted), h]; trivial
      | next t =>
        have inv' := machineInv_of_step inv h
        rw [runLoop_of_step h halted (pc halted)]
        cases waits : t.waiting with
        | true =>
          exact ⟨inv', waits, inputPending_of_step_waits h halted (pc halted) waits, by simp⟩
        | false => exact ih inv' (pc_of_step h) (by simp [waits])

theorem sessionInv_untilHalt {e e' : Session} (inv : SessionInv e) (h : e.untilHalt = some e') :
    SessionInv e' := by
  cases e with
  | ready s =>
    rw [Session.untilHalt] at h
    split_ifs at h
    cases h
    exact inv
  | blocked s left =>
    cases h
    obtain ⟨machine, waits, none, -⟩ := inv
    exact ⟨machine, waits, none, by simp⟩
  | terminated | closed | refused => cases h; exact inv

theorem sessionInv_runFor {s : State} (inv : MachineInv s) (free : s.waiting = false) (n : Nat) :
    SessionInv (runFor n s) := by
  rw [runFor_of_not_waiting free]
  refine sessionInv_runLoop (machineInv_boundary inv free) ?_ ?_
  · rw [State.boundary_spec]
    simp
  · rw [State.boundary_spec]
    simp [free]

/-- A waiting session goes on from its character, or has not been followed to an end. -/
theorem sessionInv_consoleInput {s : State} {left : Option Nat} {bound : Nat} {c : Byte}
    {e : Session} (inv : SessionInv (.blocked s left))
    (h : (Session.blocked s left).consoleInput bound c = some e) : SessionInv e := by
  obtain ⟨machine, waits, _, more⟩ := inv
  have ⟨_, _, _, _, _, _, _, running⟩ := machine
  obtain ⟨running, pc⟩ := running waits
  have resumed (n : Nat) (some : n ≠ 0) : SessionInv (runLoop n (s.supplyInput [c])) :=
    sessionInv_runLoop (s := s.supplyInput [c]) machine (fun _ => pc) fun _ => some
  cases left with
  | some n => cases h; exact resumed n fun zero => more (by rw [zero])
  | none =>
    cases bound with
    | zero =>
      rw [Session.consoleInput, runLoop, Session.untilHalt, State.supplyInput_halted, running] at h
      cases h
    | succ n => exact sessionInv_untilHalt (resumed (n + 1) n.succ_ne_zero) h

theorem machineInv_of_load {s t : State} {image : Option (List Word)} (inv : MachineInv s)
    (h : load image s = .next t) : MachineInv t ∧ t.waiting = s.waiting := by
  obtain ⟨_, base, ws, rfl, fits, rfl⟩ := load_next h
  obtain ⟨cfgWf, memWf, rest⟩ := inv
  have memWf' := State.storeWords_wf (base := base.toNat) memWf fits
  rw [State.storeWords_spec]
  exact ⟨⟨cfgWf, memWf', rest⟩, rfl⟩

theorem machineInv_of_setEntry {s t : State} {entry : Word} (inv : MachineInv s)
    (h : setEntry entry s = .next t) : MachineInv t ∧ t.waiting = s.waiting := by
  obtain ⟨before, rfl⟩ := setEntry_next h
  obtain ⟨free, running, _⟩ := (State.beforeFirstCycle_iff s).1 before
  rw [machineInv_iff] at inv ⊢
  obtain ⟨cfgWf, memWf, cursor, flags, _, _⟩ := inv
  refine ⟨⟨cfgWf, memWf, cursor, flags, fun halts => ?_, fun waits => ?_⟩, rfl⟩
  · exact absurd halts (ne_true_of_eq_false running)
  · exact absurd waits (ne_true_of_eq_false free)

theorem sessionInv_ofResult {s : State} {r : Result} (inv : MachineInv s)
    (next : ∀ t, r = .next t → MachineInv t ∧ t.waiting = false) : SessionInv (.ofResult s r) := by
  cases r with
  | next t => exact next t rfl
  | fault f => exact inv
  | refused q => trivial

theorem sessionInv_performReady {bound : Nat} {request : HostRequest} {s : State} {after : Session}
    {reply : HostReply} (inv : MachineInv s) (free : s.waiting = false)
    (h : performReady bound request s = some (after, reply)) : SessionInv after := by
  cases request with
  | load image =>
    cases h
    exact sessionInv_ofResult inv fun t loaded =>
      (machineInv_of_load inv loaded).imp_right (·.trans free)
  | setEntry entry =>
    cases h
    exact sessionInv_ofResult inv fun t set =>
      (machineInv_of_setEntry inv set).imp_right (·.trans free)
  | runToHalt =>
    obtain ⟨e, ran, same⟩ := Option.map_eq_some_iff.1 h
    cases same
    exact sessionInv_untilHalt (sessionInv_runFor inv free bound) ran
  | runFor n => cases h; exact sessionInv_runFor inv free n
  | dumpMemory | dumpRegisters => cases h; exact ⟨inv, free⟩
  | terminate | consoleInput => cases h; trivial

theorem sessionInv_perform {bound : Nat} {request : HostRequest} {session after : Session}
    {reply : HostReply} (inv : SessionInv session)
    (h : perform bound request session = some (after, reply)) : SessionInv after := by
  cases session with
  | ready s => exact sessionInv_performReady inv.1 inv.2 h
  | blocked s left =>
    cases request with
    | consoleInput c =>
      obtain ⟨e, ran, same⟩ := Option.map_eq_some_iff.1 h
      cases same
      exact sessionInv_consoleInput inv ran
    | _ => cases h; trivial
  | terminated | closed | refused => cases h; trivial

theorem perform_blocked {request : HostRequest} (noChar : ∀ c, request ≠ .consoleInput c)
    (bound : Nat) (s : State) (left : Option Nat) :
    perform bound request (.blocked s left) = some (.refused .hostOutOfTurn, .nothing) := by
  cases request with
  | consoleInput c => exact absurd rfl (noChar c)
  | _ => rfl

theorem dumpMemory_getElem (s : State) (lo len : Nat) {k : Nat}
    (h : k < (dumpMemory s lo len).length) : (dumpMemory s lo len)[k] = s.word (lo + k) := by
  simp [dumpMemory]

end Sys2Proof.Machine

namespace Sys2Proof.Proofs

open Sys2Proof.Machine

/-- Settles O50: the two laws of a write, and canonical memories that read alike are one list. -/
theorem memoryReadsReturnTheLastWrite : Obligations.MemoryReadsReturnTheLastWrite :=
  ⟨fun _ a b v wf => Memory.read_write wf a b v, fun _ _ v wf inside => Memory.wf_write wf v inside,
    fun _ _ wf wf' same => Memory.eq_of_read_eq wf wf' same⟩

/-- Settles O55: the loader's cases; the stores are direct and touch the memory alone. -/
theorem loadStoresTheImageOrStops : Obligations.LoadStoresTheImageOrStops := by
  refine ⟨fun s image begun => load_of_begun begun image,
    fun s before => ⟨if_pos before, if_pos before⟩,
    fun base ws s before large => load_of_too_large before large, fun base ws s before memWf fits =>
    ⟨_, load_of_fits before fits, State.storeWords_inside memWf fits,
      fun a outside => State.storeWords_outside s outside, State.storeWords_wf memWf fits, ?_⟩⟩
  rw [State.storeWords_spec]
  exact ⟨rfl, fun _ => rfl, ⟨rfl, rfl, rfl⟩, rfl, rfl, rfl, rfl, ⟨rfl, rfl, rfl⟩, rfl, rfl, rfl,
    rfl⟩

/-- Settles O56: the loop and the steps agree turn by turn, and a longer bound changes nothing. -/
theorem steppingIsTheRunDriver : Obligations.SteppingIsTheRunDriver := by
  refine ⟨fun n s free => agreesWithSteps_runFor free n, fun s free => runFor_of_not_waiting free 0,
    fun n bound s c running pc => ⟨_, rfl, ?_⟩, fun n m s e le => runToHalt_mono le,
    fun s e e' ⟨n, h⟩ ⟨m, h'⟩ => ?_, fun s t ⟨_, h⟩ => halted_of_untilHalt h⟩
  · exact agreesWithSteps_runLoop (s := s.supplyInput [c]) running pc (n + 1)
  · obtain le | ge := le_total n m
    · exact Option.some.inj ((runToHalt_mono le h).symm.trans h')
    · exact Option.some.inj (h.symm.trans (runToHalt_mono ge h'))

/-- Settles O58: sixteen bits of a word are the word, and it stands at the entry chosen for it. -/
theorem thePlacedWordIsFetchedNext : Obligations.ThePlacedWordIsFetchedNext := by
  intro s w memWf
  have word : BitVec.ofNat 16 (w.toNat % 2 ^ 16) = w := by
    rw [Nat.mod_eq_of_lt w.isLt, BitVec.ofNat_toNat, BitVec.setWidth_eq]
  rw [State.withFetchWord, word]
  exact fetches_placeFetchWord memWf w

/-- Settles O59: each request in and out of its turn. -/
theorem theHostActsOnlyInItsTurn : Obligations.TheHostActsOnlyInItsTurn := by
  refine ⟨fun bound s left request noChar => perform_blocked noChar bound s left, fun _ _ _ => rfl,
    fun s image entry begun => ?_, fun s n waits => runFor_of_waiting waits n,
    fun s entry before => if_pos before,
    fun bound s lo len =>
      ⟨_, rfl, by simp [dumpMemory], fun k h _ => dumpMemory_getElem s lo len h⟩,
    fun bound s => ⟨_, rfl, rfl, rfl, rfl, rfl, rfl, rfl, rfl⟩, fun _ _ => rfl,
    fun _ _ _ _ => ⟨rfl, rfl⟩⟩
  have late := State.beforeFirstCycle_of_begun begun
  exact ⟨load_of_begun late image, if_neg (by simp [late])⟩

/-- Settles O60: each request, where it acts, keeps what its standing needs. -/
theorem hostRequestsKeepTheSessionInvariant : Obligations.HostRequestsKeepTheSessionInvariant :=
  ⟨⟨resetMeetsTheInvariant, rfl⟩, fun _ _ _ _ _ => sessionInv_perform⟩

end Sys2Proof.Proofs
end
